-- ==== Sys2Proof/Word.lean ====
section
/-! DEFINITION. The units of data of AESCORE (00_scope.md R13): bytes, 32-bit words, byte sequences and expanded keys. -/

namespace Sys2Proof

/-- A byte: 8 bits (R13). -/
abbrev Byte := BitVec 8

/-- A word: 32 bits, four bytes packed big-endian (R12, R13). -/
abbrev Word := BitVec 32

/-- A finite sequence of bytes (R13). -/
abbrev Bytes := List Byte

/-- An expanded key: 4·(Nr+1) words (R13). -/
abbrev ExpKey := List Word

end Sys2Proof
end

