-- ==== Sys2Proof/Config.lean ====
section
/-! DEFINITION. What an instance of AESCORE fixes, and the free values: the values the spec marks `any`
(00_scope.md R14). A free value is a constant with no body, applied to the number of the draw, so that no proof can know it and
a claim holds whatever it is. -/

namespace Sys2Proof

/-- The default of the parameter BUF_BYTES (00_scope.md R10; 92_eei_decisions.md D3). -/
def Config.defaultBufBytes : Nat := 4096

/-- The word of draw number `n`: an RK word nothing has written since reset (10_state.md R27), a read of OUTLEN, RK or OUT while
BUSY = 1 (20_memory.md R60). Log entries 2 and 4. -/
opaque Config.freeWord (draw : Nat) : Word

/-- The byte that draw number `n` puts at a bus byte address: an IN or OUT byte that nothing has written since reset (10_state.md
R28, R29), an OUT byte at or above OUTLEN (R29; log entry 3), a result byte that depends on an unwritten IN byte
(70_reset_and_hazards.md R273; log entry 19). -/
opaque Config.freeByte (draw : Nat) (addr : Nat) : Byte

end Sys2Proof
end

