-- ==== Sys2Proof/Syntax.lean ====
section
/-! DEFINITION. The commands of AESCORE (30_encoding.md R81), one constructor per row of opcode_table.json. A command word has no
operand field: every operand comes from a register (R80, R90). -/

namespace Sys2Proof

/-- The seven commands (30_encoding.md R81). -/
inductive Instr where
  /-- KEYEXP: expand the key (44_commands.md R213). -/
  | keyexp
  /-- ENC_ECB: pad and ECB-encrypt (44_commands.md R214). -/
  | encEcb
  /-- DEC_ECB: ECB-decrypt and unpad (44_commands.md R215). -/
  | decEcb
  /-- ENC_CBC: pad and CBC-encrypt (44_commands.md R216). -/
  | encCbc
  /-- DEC_CBC: CBC-decrypt and unpad (44_commands.md R217). -/
  | decCbc
  /-- ENC_BLK: the forward cipher on one block (44_commands.md R218). -/
  | encBlk
  /-- DEC_BLK: the inverse cipher on one block (44_commands.md R219). -/
  | decBlk
  deriving DecidableEq, Repr

end Sys2Proof
end

