-- ==== Sys2Proof/WellFormed.lean ====
section
/-! DEFINITION. What is well formed: an instruction (it has no operand, so always), a command word, the parameter BUF_BYTES and a
bus access. -/

namespace Sys2Proof

/-- No command has an operand field (30_encoding.md R80), so there is nothing that could be ill formed. -/
def Instr.wf : Instr → Bool
  | .keyexp | .encEcb | .decEcb | .encCbc | .decCbc | .encBlk | .decBlk => true

/-- A command word is legal when its reserved bits are zero and its OP is one of 1 to 7 (30_encoding.md R81 to R83). -/
def commandWordWf (w : Word) : Bool :=
  w.extractLsb' 4 28 == 0 && 1 ≤ (w.extractLsb' 0 4).toNat && (w.extractLsb' 0 4).toNat ≤ 7

/-- BUF_BYTES is a multiple of 16 between 32 and 65536 (00_scope.md R10). -/
def bufBytesWf (n : Nat) : Bool :=
  n % 16 == 0 && 32 ≤ n && n ≤ 65536

/-- A bus access is well formed when it is 4-byte aligned and all four byte lanes are enabled (20_memory.md R57, R58, R69). -/
def accessWf (addr : BitVec 18) (lanes : BitVec 4) : Bool :=
  addr.toNat % 4 == 0 && lanes == 15

end Sys2Proof
end

