-- ==== Sys2Proof/Decode.lean ====
section
/-! DEFINITION. The decoder of command words (30_encoding.md R84), total on 32-bit words and rejecting by name, and the encoder
(R95). AESCORE fetches nothing from memory (20_memory.md R73): the word decoded is the one in PEND_OP. -/

namespace Sys2Proof

/-- Why a word is no command. -/
inductive Reject where
  /-- CMD[31:4] is not zero (30_encoding.md R82). -/
  | reservedBits
  /-- OP is 0x0 or 0x8 to 0xF (30_encoding.md R83). -/
  | reservedOp
  deriving DecidableEq, Repr

/-- What a word decodes to (30_encoding.md R84: `Command ⊎ {Invalid}`). -/
inductive Decoded where
  | command (i : Instr)
  | invalid (why : Reject)
  deriving DecidableEq, Repr

/-- The OP field, bits 3:0 (30_encoding.md R80). -/
def opField (w : Word) : BitVec 4 := w.extractLsb' 0 4

/-- The RSV field, bits 31:4 (30_encoding.md R80). -/
def rsvField (w : Word) : BitVec 28 := w.extractLsb' 4 28

/-- The decoder of 30_encoding.md R84. -/
def decode (w : Word) : Decoded :=
  if rsvField w ≠ 0 then .invalid .reservedBits
  else match (opField w).toNat with
    | 0x1 => .command .keyexp
    | 0x2 => .command .encEcb
    | 0x3 => .command .decEcb
    | 0x4 => .command .encCbc
    | 0x5 => .command .decCbc
    | 0x6 => .command .encBlk
    | 0x7 => .command .decBlk
    | _ => .invalid .reservedOp

/-- The OP value of a command (30_encoding.md R81). -/
def opOf : Instr → BitVec 4
  | .keyexp => 0x1
  | .encEcb => 0x2
  | .decEcb => 0x3
  | .encCbc => 0x4
  | .decCbc => 0x5
  | .encBlk => 0x6
  | .decBlk => 0x7

/-- The encoder: OP zero-extended to 32 bits (30_encoding.md R95). -/
def encode (i : Instr) : Word := (opOf i).setWidth 32

/-- The decoder on a word numbered as opcode_table.json numbers it. A command is one 32-bit word (30_encoding.md R91), so the
`nbits` bits of `w` stand at the bottom of it and every bit above them is zero; bits past the word are no command. -/
def decodeTableWord (nbits w : Nat) : Option Instr :=
  if w % 2 ^ nbits < 2 ^ 32 then
    match decode (BitVec.ofNat 32 (w % 2 ^ nbits)) with
    | .command i => some i
    | .invalid _ => none
  else none

end Sys2Proof
end

