-- ==== Sys2Proof/Machine/State.lean ====
section
/-! DEFINITION. The state of AESCORE (10_state.md R20, R42), the data its agents exchange, and the state after reset (R40). All of it
is plain data. -/

namespace Sys2Proof.Machine

/-- The reasons a step could stop the machine with a fault. There are none, so this type has no constructor: "No behaviour of AESCORE
is `stuck`" (93_implementation_defined.md), Execute is total (44_commands.md R211), and command errors complete with a code in
STATUS.ERR (60_exceptions.md R246). Nobody raises one, which is what the spec says (log entry 15). -/
inductive Fault where
  deriving DecidableEq, Repr

/-- The reasons a step could be refused. -/
inductive Refusal where
  /-- An instruction that has no meaning yet: raised by an arm of `exec` only, and no arm raises it now. Safe: nothing is claimed of a
  refused step. -/
  | notModelled (mnemonic : String)
  deriving DecidableEq, Repr

/-- The parameter BUF_BYTES: the size in bytes of each message buffer (00_scope.md R10). -/
structure BufBytes where
  /-- BUF_BYTES. -/
  bytes : Nat
  /-- It is a size R10 allows. -/
  ok : bufBytesWf bytes = true
  deriving DecidableEq, Repr

/-- One RK word (10_state.md R42's `Cell`): a word a command wrote, or one the spec calls `any`. -/
inductive Cell where
  /-- Written by a command. -/
  | known (w : Word)
  /-- `any`: the free word of that draw (log entry 2). -/
  | drawn (draw : Nat)
  deriving DecidableEq, Repr

/-- The State register S[0..3] of the datapath: four columns, byte r of a column in row r (00_scope.md R13, 10_state.md R35). It
lives inside a core step and is no field of `State` (R42; log entry 8). -/
structure AesState where
  c0 : Word
  c1 : Word
  c2 : Word
  c3 : Word
  deriving DecidableEq, Repr

/-- The command errors (60_exceptions.md R240). -/
inductive CmdError where
  /-- R241. -/
  | invalidKeyLength
  /-- R242. -/
  | invalidBlockLength
  /-- R243. -/
  | paddingOverflow
  /-- R244. -/
  | invalidCommand
  /-- R245. -/
  | bufferOverflow
  deriving DecidableEq, Repr

/-- The response to a host transaction (20_memory.md R55 to R57). -/
inductive Response where
  /-- OKAY with the value of a read. -/
  | data (v : Word)
  /-- OKAY for a write. -/
  | okay
  /-- ERROR: no value and no effect. -/
  | error
  deriving DecidableEq, Repr

/-- The value a host write sends: a number, or a name an earlier read bound (30_encoding.md R92). -/
inductive HostVal where
  | lit (v : Word)
  | name (x : String)
  deriving DecidableEq, Repr

/-- One line of a host program (30_encoding.md R92). `lanes` are the byte lanes enabled: all four is 15 (20_memory.md R55). -/
inductive HostOp where
  /-- `W addr, value`. -/
  | write (addr : BitVec 18) (lanes : BitVec 4) (v : HostVal)
  /-- `R addr -> name`; with no name, `R addr == value`, whose expectation no line holds (log entry 18). -/
  | read (addr : BitVec 18) (lanes : BitVec 4) (name : Option String)
  /-- `POLL addr, mask, value`. -/
  | poll (addr : BitVec 18) (mask value : Word)
  /-- `WAIT_IRQ`. -/
  | waitIrq
  deriving DecidableEq, Repr

/-- The agent that moves (00_scope.md R17). -/
inductive Turn where
  | host
  | core
  | reset
  deriving DecidableEq, Repr

/-- The memory that holds the two message buffers: bytes at bus byte addresses (44_commands.md R222), strictly rising. An address not
listed holds a byte the spec calls `any`. -/
abbrev Memory := List Host.Cell

/-- The state of AESCORE between steps (10_state.md R20, R42), its parameter, and the model's own fields. -/
structure State where
  /-- BUF_BYTES (00_scope.md R10); no step changes it (log entry 1). -/
  bufBytes : BufBytes
  /-- CTRL.IE (10_state.md R23). -/
  ie : Bool
  /-- STATUS.BUSY (R24). -/
  busy : Bool
  /-- STATUS.DONE (R24). -/
  done : Bool
  /-- STATUS.WERR (R24). -/
  werr : Bool
  /-- STATUS.ERR (R24). -/
  err : BitVec 4
  /-- KEYCFG.NK (R30). -/
  nk : BitVec 4
  /-- LEN (R31). -/
  len : Word
  /-- OUTLEN (R32). -/
  outlen : Word
  /-- PEND_OP (R34). -/
  pendOp : Word
  /-- KEY[0..7] (R25). -/
  key : Vector Word 8
  /-- IV[0..3] (R26). -/
  iv : Vector Word 4
  /-- RK[0..59] (R27). -/
  rk : Vector Cell 60
  /-- The written bytes of IN and OUT (R28, R29). -/
  mem : Memory
  /-- The draw behind the `any` bytes of IN (R28; log entry 3). -/
  inDraw : Nat
  /-- The draw behind the `any` bytes of OUT (R29; log entry 3). -/
  outDraw : Nat
  /-- How many free values have been drawn (log entry 4). -/
  draws : Nat
  /-- The host's remaining program (30_encoding.md R92; log entry 6). -/
  prog : List HostOp
  /-- The names the host has bound (R92; log entry 6). -/
  vars : List (String × Word)
  /-- The responses the host has seen, newest first (00_scope.md R18; log entry 6). -/
  trace : List Response
  /-- Which agent moves next (44_commands.md R211; log entry 5). -/
  turns : List Turn
  deriving DecidableEq, Repr

/-- Sixty RK words that all hold `any`, with draws `n` to `n + 59` (10_state.md R40). -/
def drawnCells (n : Nat) : Vector Cell 60 := Vector.ofFn fun i => .drawn (n + i.val)

/-- The state right after reset (10_state.md R40; 70_reset_and_hazards.md R270, R272), with the default BUF_BYTES and no host program.
PEND_OP is unspecified there and the model names 0 (log entry 7). -/
def State.reset : State where
  bufBytes := ⟨Config.defaultBufBytes, by decide⟩
  ie := false
  busy := false
  done := false
  werr := false
  err := 0
  nk := 0
  len := 0
  outlen := 0
  pendOp := 0
  key := Vector.replicate 8 0
  iv := Vector.replicate 4 0
  rk := drawnCells 0
  mem := []
  inDraw := 60
  outDraw := 61
  draws := 62
  prog := []
  vars := []
  trace := []
  turns := []

end Sys2Proof.Machine
end

