-- ==== Sys2Proof/Machine/Ops.lean ====
section
/-! DEFINITION. The operations every agent shares: bytes of words, the buffer memory, the RK words, command issue, completion (the
analogue of taking an exception), acknowledgement (the analogue of the return) and reset. -/

namespace Sys2Proof.Machine

/-! ### Bytes of a word -/

/-- `byte(w, i)`: byte i of a word, 0 the most significant (00_scope.md R12). -/
def byteOf (w : Word) (i : Nat) : Byte := w.extractLsb' (24 - 8 * i) 8

/-- `pack(b0, b1, b2, b3)`: b0 in bits 31:24 (00_scope.md R12). -/
def pack (b0 b1 b2 b3 : Byte) : Word := b0 ++ b1 ++ b2 ++ b3

/-- The four bytes of a word, most significant first (20_memory.md R63). -/
def wordBytes (w : Word) : Bytes := [byteOf w 0, byteOf w 1, byteOf w 2, byteOf w 3]

/-! ### The buffer memory -/

/-- The canonical form: addresses strictly rising. -/
abbrev Memory.wf (m : Memory) : Prop := m.Pairwise fun c d => c.1 < d.1

/-- The byte listed at an address, or none: an unlisted byte is one the spec calls `any` (10_state.md R42). -/
def Memory.lookup (a : Nat) : Memory → Option Byte
  | [] => none
  | c :: cs => if c.1 = a then some c.2 else Memory.lookup a cs

/-- Write one byte, keeping the addresses rising. -/
def Memory.store (a : Nat) (b : Byte) : Memory → Memory
  | [] => [(a, b)]
  | c :: cs =>
    if a < c.1 then (a, b) :: c :: cs
    else if a = c.1 then (a, b) :: cs
    else c :: Memory.store a b cs

/-- Write a sequence of bytes at consecutive addresses. -/
def Memory.storeBytes (a : Nat) : Bytes → Memory → Memory
  | [], m => m
  | b :: bs, m => Memory.storeBytes (a + 1) bs (Memory.store a b m)

/-- Forget the bytes of an address range `[lo, hi)`: they become `any`. -/
def Memory.erase (lo hi : Nat) (m : Memory) : Memory :=
  m.filter fun c => !(decide (lo ≤ c.1) && decide (c.1 < hi))

/-- The bus byte address of IN byte 0 (20_memory.md R51). -/
def inBase : Nat := 0x10000

/-- The bus byte address of OUT byte 0 (20_memory.md R51). -/
def outBase : Nat := 0x20000

/-- What an unlisted byte of the buffers reads as: the free byte of the buffer's draw (10_state.md R28, R29; log entry 3). -/
def unlistedByte (s : State) (a : Nat) : Byte :=
  Config.freeByte (if a < outBase then s.inDraw else s.outDraw) a

/-- The byte the buffer memory holds at a bus byte address. -/
def byteAt (s : State) (a : Nat) : Byte :=
  match Memory.lookup a s.mem with
  | some b => b
  | none => unlistedByte s a

/-- `INB(k)` (00_scope.md R14, 10_state.md R28). -/
def inByte (s : State) (k : Nat) : Byte := byteAt s (inBase + k)

/-- `OUTB(k)` (00_scope.md R14, 10_state.md R29). -/
def outByte (s : State) (k : Nat) : Byte := byteAt s (outBase + k)

/-- A host write of IN word k (20_memory.md R53). -/
def storeInWord (k : Nat) (v : Word) (s : State) : State :=
  { s with mem := Memory.storeBytes (inBase + 4 * k) (wordBytes v) s.mem }

/-- `WriteOut(r)` (44_commands.md R212): the result bytes, `any` above them, and OUTLEN. Draw `draws` is the one that result bytes with
an `any` operand take (log entry 19); the bytes above the result take the next one, so that nothing ties the two together. -/
def writeOut (r : Bytes) (s : State) : State :=
  { s with
    mem := Memory.storeBytes outBase r (Memory.erase outBase (outBase + s.bufBytes.bytes) s.mem)
    outDraw := s.draws + 1
    draws := s.draws + 2
    outlen := BitVec.ofNat 32 r.length }

/-! ### The RK words -/

/-- The word an RK cell holds: a drawn one holds the free word of its draw (log entry 2). -/
def Cell.val : Cell → Word
  | .known w => w
  | .drawn n => Config.freeWord n

/-- Write words to RK from index i on. -/
def storeCells (i : Nat) : List Word → Vector Cell 60 → Vector Cell 60
  | [], v => v
  | w :: ws, v => storeCells (i + 1) ws (v.setIfInBounds i (.known w))

/-- `RK[i] <- w[i]` for every word of the expansion, the words above it unchanged (41_key_schedule.md R149). -/
def storeRk (w : ExpKey) (s : State) : State :=
  { s with rk := storeCells 0 w s.rk }

/-! ### Issue, completion, acknowledgement, reset -/

/-- Command issue with BUSY = 0 (44_commands.md R210). -/
def issue (v : Word) (s : State) : State :=
  { s with pendOp := v, busy := true, done := false, err := 0 }

/-- `Complete(code)` (60_exceptions.md R246), the analogue of taking an exception: it saves the code in ERR, and there is no pc, no
mode and no mask to change. -/
def complete (code : BitVec 4) (s : State) : State :=
  { s with err := code, busy := false, done := true }

/-- Acknowledgement, the analogue of the return (60_exceptions.md R253): a write of STATUS clears DONE and WERR where it writes 1
(10_state.md R24, 20_memory.md R56), and nothing else. -/
def acknowledge (v : Word) (s : State) : State :=
  { s with
    done := if v.getLsbD 1 then false else s.done
    werr := if v.getLsbD 2 then false else s.werr }

/-- Reset as one step (70_reset_and_hazards.md R270, R271): every register to its R40 value, RK, IN and OUT to fresh `any` values. The
instance (BUF_BYTES) and the host (its program, names, observations) are not AESCORE's state and stay (log entry 12). -/
def applyReset (s : State) : State :=
  { s with
    ie := false, busy := false, done := false, werr := false, err := 0
    nk := 0, len := 0, outlen := 0, pendOp := 0
    key := Vector.replicate 8 0
    iv := Vector.replicate 4 0
    rk := drawnCells s.draws
    mem := []
    inDraw := s.draws + 60
    outDraw := s.draws + 61
    draws := s.draws + 62 }

end Sys2Proof.Machine
end

