-- ==== Sys2Proof/Machine/Datapath.lean ====
section
/-! DEFINITION. The datapath stages (40_datapath.md): conversions, GF(2^8) arithmetic, the SubBytes ROMs, the row and column transforms
and AddRoundKey. Every stage is a function of its whole input, so the snapshot rule R120 holds by construction (R278). -/

namespace Sys2Proof.Machine

/-! ### Conversions -/

/-- `BlockToState(b)`: column c is bytes 4c to 4c+3 (40_datapath.md R100). Its block always has 16 bytes. -/
def blockToState (b : Bytes) : AesState where
  c0 := pack (b.getD 0 0) (b.getD 1 0) (b.getD 2 0) (b.getD 3 0)
  c1 := pack (b.getD 4 0) (b.getD 5 0) (b.getD 6 0) (b.getD 7 0)
  c2 := pack (b.getD 8 0) (b.getD 9 0) (b.getD 10 0) (b.getD 11 0)
  c3 := pack (b.getD 12 0) (b.getD 13 0) (b.getD 14 0) (b.getD 15 0)

/-- `StateToBlock(S)`: byte 4c + r is row r of column c (40_datapath.md R101). -/
def stateToBlock (S : AesState) : Bytes :=
  wordBytes S.c0 ++ wordBytes S.c1 ++ wordBytes S.c2 ++ wordBytes S.c3

/-! ### GF(2^8) arithmetic -/

/-- Multiplication by {02} modulo 0x11B, on nine bits (40_datapath.md R102). -/
def xtime (b : Byte) : Byte :=
  let t : BitVec 9 := b.setWidth 9 <<< 1
  if b.getLsbD 7 then (t ^^^ 0x11B).setWidth 8 else t.setWidth 8

/-- Multiplication by {09} (40_datapath.md R103). -/
def mult9 (b : Byte) : Byte := b ^^^ xtime (xtime (xtime b))

/-- Multiplication by {0b} (40_datapath.md R104). -/
def multB (b : Byte) : Byte := b ^^^ xtime b ^^^ xtime (xtime (xtime b))

/-- Multiplication by {0d} (40_datapath.md R105). -/
def multD (b : Byte) : Byte := b ^^^ xtime (xtime b) ^^^ xtime (xtime (xtime b))

/-- Multiplication by {0e} (40_datapath.md R106). -/
def multE (b : Byte) : Byte := xtime b ^^^ xtime (xtime b) ^^^ xtime (xtime (xtime b))

/-! ### SubBytes ROMs -/

/-- The rows of the SubBytes ROM (40_datapath.md R108), by the high nibble. -/
def sboxRow : Nat → List Byte
  | 0x0 => [0x63, 0x7c, 0x77, 0x7b, 0xf2, 0x6b, 0x6f, 0xc5, 0x30, 0x01, 0x67, 0x2b, 0xfe, 0xd7, 0xab, 0x76]
  | 0x1 => [0xca, 0x82, 0xc9, 0x7d, 0xfa, 0x59, 0x47, 0xf0, 0xad, 0xd4, 0xa2, 0xaf, 0x9c, 0xa4, 0x72, 0xc0]
  | 0x2 => [0xb7, 0xfd, 0x93, 0x26, 0x36, 0x3f, 0xf7, 0xcc, 0x34, 0xa5, 0xe5, 0xf1, 0x71, 0xd8, 0x31, 0x15]
  | 0x3 => [0x04, 0xc7, 0x23, 0xc3, 0x18, 0x96, 0x05, 0x9a, 0x07, 0x12, 0x80, 0xe2, 0xeb, 0x27, 0xb2, 0x75]
  | 0x4 => [0x09, 0x83, 0x2c, 0x1a, 0x1b, 0x6e, 0x5a, 0xa0, 0x52, 0x3b, 0xd6, 0xb3, 0x29, 0xe3, 0x2f, 0x84]
  | 0x5 => [0x53, 0xd1, 0x00, 0xed, 0x20, 0xfc, 0xb1, 0x5b, 0x6a, 0xcb, 0xbe, 0x39, 0x4a, 0x4c, 0x58, 0xcf]
  | 0x6 => [0xd0, 0xef, 0xaa, 0xfb, 0x43, 0x4d, 0x33, 0x85, 0x45, 0xf9, 0x02, 0x7f, 0x50, 0x3c, 0x9f, 0xa8]
  | 0x7 => [0x51, 0xa3, 0x40, 0x8f, 0x92, 0x9d, 0x38, 0xf5, 0xbc, 0xb6, 0xda, 0x21, 0x10, 0xff, 0xf3, 0xd2]
  | 0x8 => [0xcd, 0x0c, 0x13, 0xec, 0x5f, 0x97, 0x44, 0x17, 0xc4, 0xa7, 0x7e, 0x3d, 0x64, 0x5d, 0x19, 0x73]
  | 0x9 => [0x60, 0x81, 0x4f, 0xdc, 0x22, 0x2a, 0x90, 0x88, 0x46, 0xee, 0xb8, 0x14, 0xde, 0x5e, 0x0b, 0xdb]
  | 0xA => [0xe0, 0x32, 0x3a, 0x0a, 0x49, 0x06, 0x24, 0x5c, 0xc2, 0xd3, 0xac, 0x62, 0x91, 0x95, 0xe4, 0x79]
  | 0xB => [0xe7, 0xc8, 0x37, 0x6d, 0x8d, 0xd5, 0x4e, 0xa9, 0x6c, 0x56, 0xf4, 0xea, 0x65, 0x7a, 0xae, 0x08]
  | 0xC => [0xba, 0x78, 0x25, 0x2e, 0x1c, 0xa6, 0xb4, 0xc6, 0xe8, 0xdd, 0x74, 0x1f, 0x4b, 0xbd, 0x8b, 0x8a]
  | 0xD => [0x70, 0x3e, 0xb5, 0x66, 0x48, 0x03, 0xf6, 0x0e, 0x61, 0x35, 0x57, 0xb9, 0x86, 0xc1, 0x1d, 0x9e]
  | 0xE => [0xe1, 0xf8, 0x98, 0x11, 0x69, 0xd9, 0x8e, 0x94, 0x9b, 0x1e, 0x87, 0xe9, 0xce, 0x55, 0x28, 0xdf]
  | 0xF => [0x8c, 0xa1, 0x89, 0x0d, 0xbf, 0xe6, 0x42, 0x68, 0x41, 0x99, 0x2d, 0x0f, 0xb0, 0x54, 0xbb, 0x16]
  | _ => []

/-- `SBOX[b]`: row by the high nibble, column by the low one (40_datapath.md R108). -/
def sbox (b : Byte) : Byte := (sboxRow (b.toNat / 16)).getD (b.toNat % 16) 0

/-- The rows of the inverse ROM (40_datapath.md R109), by the high nibble. -/
def invSboxRow : Nat → List Byte
  | 0x0 => [0x52, 0x09, 0x6a, 0xd5, 0x30, 0x36, 0xa5, 0x38, 0xbf, 0x40, 0xa3, 0x9e, 0x81, 0xf3, 0xd7, 0xfb]
  | 0x1 => [0x7c, 0xe3, 0x39, 0x82, 0x9b, 0x2f, 0xff, 0x87, 0x34, 0x8e, 0x43, 0x44, 0xc4, 0xde, 0xe9, 0xcb]
  | 0x2 => [0x54, 0x7b, 0x94, 0x32, 0xa6, 0xc2, 0x23, 0x3d, 0xee, 0x4c, 0x95, 0x0b, 0x42, 0xfa, 0xc3, 0x4e]
  | 0x3 => [0x08, 0x2e, 0xa1, 0x66, 0x28, 0xd9, 0x24, 0xb2, 0x76, 0x5b, 0xa2, 0x49, 0x6d, 0x8b, 0xd1, 0x25]
  | 0x4 => [0x72, 0xf8, 0xf6, 0x64, 0x86, 0x68, 0x98, 0x16, 0xd4, 0xa4, 0x5c, 0xcc, 0x5d, 0x65, 0xb6, 0x92]
  | 0x5 => [0x6c, 0x70, 0x48, 0x50, 0xfd, 0xed, 0xb9, 0xda, 0x5e, 0x15, 0x46, 0x57, 0xa7, 0x8d, 0x9d, 0x84]
  | 0x6 => [0x90, 0xd8, 0xab, 0x00, 0x8c, 0xbc, 0xd3, 0x0a, 0xf7, 0xe4, 0x58, 0x05, 0xb8, 0xb3, 0x45, 0x06]
  | 0x7 => [0xd0, 0x2c, 0x1e, 0x8f, 0xca, 0x3f, 0x0f, 0x02, 0xc1, 0xaf, 0xbd, 0x03, 0x01, 0x13, 0x8a, 0x6b]
  | 0x8 => [0x3a, 0x91, 0x11, 0x41, 0x4f, 0x67, 0xdc, 0xea, 0x97, 0xf2, 0xcf, 0xce, 0xf0, 0xb4, 0xe6, 0x73]
  | 0x9 => [0x96, 0xac, 0x74, 0x22, 0xe7, 0xad, 0x35, 0x85, 0xe2, 0xf9, 0x37, 0xe8, 0x1c, 0x75, 0xdf, 0x6e]
  | 0xA => [0x47, 0xf1, 0x1a, 0x71, 0x1d, 0x29, 0xc5, 0x89, 0x6f, 0xb7, 0x62, 0x0e, 0xaa, 0x18, 0xbe, 0x1b]
  | 0xB => [0xfc, 0x56, 0x3e, 0x4b, 0xc6, 0xd2, 0x79, 0x20, 0x9a, 0xdb, 0xc0, 0xfe, 0x78, 0xcd, 0x5a, 0xf4]
  | 0xC => [0x1f, 0xdd, 0xa8, 0x33, 0x88, 0x07, 0xc7, 0x31, 0xb1, 0x12, 0x10, 0x59, 0x27, 0x80, 0xec, 0x5f]
  | 0xD => [0x60, 0x51, 0x7f, 0xa9, 0x19, 0xb5, 0x4a, 0x0d, 0x2d, 0xe5, 0x7a, 0x9f, 0x93, 0xc9, 0x9c, 0xef]
  | 0xE => [0xa0, 0xe0, 0x3b, 0x4d, 0xae, 0x2a, 0xf5, 0xb0, 0xc8, 0xeb, 0xbb, 0x3c, 0x83, 0x53, 0x99, 0x61]
  | 0xF => [0x17, 0x2b, 0x04, 0x7e, 0xba, 0x77, 0xd6, 0x26, 0xe1, 0x69, 0x14, 0x63, 0x55, 0x21, 0x0c, 0x7d]
  | _ => []

/-- `INV_SBOX[b]` (40_datapath.md R109). -/
def invSbox (b : Byte) : Byte := (invSboxRow (b.toNat / 16)).getD (b.toNat % 16) 0

/-- `SubWord(w)` (40_datapath.md R110). -/
def subWord (w : Word) : Word :=
  pack (sbox (byteOf w 0)) (sbox (byteOf w 1)) (sbox (byteOf w 2)) (sbox (byteOf w 3))

/-- `InvSubWord(w)` (40_datapath.md R110). -/
def invSubWord (w : Word) : Word :=
  pack (invSbox (byteOf w 0)) (invSbox (byteOf w 1)) (invSbox (byteOf w 2)) (invSbox (byteOf w 3))

/-- `SubBytes(S)` (40_datapath.md R111). -/
def subBytes (S : AesState) : AesState :=
  ⟨subWord S.c0, subWord S.c1, subWord S.c2, subWord S.c3⟩

/-- `InvSubBytes(S)` (40_datapath.md R112). -/
def invSubBytes (S : AesState) : AesState :=
  ⟨invSubWord S.c0, invSubWord S.c1, invSubWord S.c2, invSubWord S.c3⟩

/-! ### Row and column transforms -/

/-- A column whose row r is row r of the r-th word given. -/
def rowsOf (w0 w1 w2 w3 : Word) : Word :=
  pack (byteOf w0 0) (byteOf w1 1) (byteOf w2 2) (byteOf w3 3)

/-- `ShiftRows(S)`: new column c, row i is old column (c+i) mod 4, row i (40_datapath.md R113). -/
def shiftRows (S : AesState) : AesState where
  c0 := rowsOf S.c0 S.c1 S.c2 S.c3
  c1 := rowsOf S.c1 S.c2 S.c3 S.c0
  c2 := rowsOf S.c2 S.c3 S.c0 S.c1
  c3 := rowsOf S.c3 S.c0 S.c1 S.c2

/-- `InvShiftRows(S)`: new column c, row i is old column (c−i) mod 4, row i (40_datapath.md R114). -/
def invShiftRows (S : AesState) : AesState where
  c0 := rowsOf S.c0 S.c3 S.c2 S.c1
  c1 := rowsOf S.c1 S.c0 S.c3 S.c2
  c2 := rowsOf S.c2 S.c1 S.c0 S.c3
  c3 := rowsOf S.c3 S.c2 S.c1 S.c0

/-- `MixColumn(w)`: byte i is `a ⊕ b[i] ⊕ xtime(b[i] ⊕ b[i+1])` with a the XOR of all four (40_datapath.md R115). -/
def mixColumn (w : Word) : Word :=
  let b0 := byteOf w 0
  let b1 := byteOf w 1
  let b2 := byteOf w 2
  let b3 := byteOf w 3
  let a := b0 ^^^ b1 ^^^ b2 ^^^ b3
  pack (a ^^^ b0 ^^^ xtime (b0 ^^^ b1)) (a ^^^ b1 ^^^ xtime (b1 ^^^ b2))
    (a ^^^ b2 ^^^ xtime (b2 ^^^ b3)) (a ^^^ b3 ^^^ xtime (b3 ^^^ b0))

/-- `MixColumns(S)` (40_datapath.md R115). -/
def mixColumns (S : AesState) : AesState :=
  ⟨mixColumn S.c0, mixColumn S.c1, mixColumn S.c2, mixColumn S.c3⟩

/-- One output byte of InvMixColumn: {0e}, {0b}, {0d}, {09} times the bytes j, j+1, j+2, j+3 (40_datapath.md R116). -/
def invMixByte (b0 b1 b2 b3 : Byte) : Byte := multE b0 ^^^ multB b1 ^^^ multD b2 ^^^ mult9 b3

/-- `InvMixColumn(w)` (40_datapath.md R116). -/
def invMixColumn (w : Word) : Word :=
  let b0 := byteOf w 0
  let b1 := byteOf w 1
  let b2 := byteOf w 2
  let b3 := byteOf w 3
  pack (invMixByte b0 b1 b2 b3) (invMixByte b1 b2 b3 b0) (invMixByte b2 b3 b0 b1) (invMixByte b3 b0 b1 b2)

/-- `InvMixColumns(S)` (40_datapath.md R116). -/
def invMixColumns (S : AesState) : AesState :=
  ⟨invMixColumn S.c0, invMixColumn S.c1, invMixColumn S.c2, invMixColumn S.c3⟩

/-- `AddRoundKey(S, w, r)`: column c is XORed with word 4r + c, inside w for r ≤ Nr (40_datapath.md R117, 41_key_schedule.md R148). -/
def addRoundKey (S : AesState) (w : ExpKey) (r : Nat) : AesState :=
  ⟨S.c0 ^^^ w.getD (4 * r) 0, S.c1 ^^^ w.getD (4 * r + 1) 0, S.c2 ^^^ w.getD (4 * r + 2) 0, S.c3 ^^^ w.getD (4 * r + 3) 0⟩

end Sys2Proof.Machine
end

