-- ==== Sys2Proof/Machine/Operands.lean ====
section
/-! DEFINITION. The operands of the commands (30_encoding.md R90): NK, the key words, the IV bytes and the message bytes. No operand is
sign-extended, scaled or shifted. -/

namespace Sys2Proof.Machine

/-- Nr as a function of Nk; undefined, so none, for any Nk but 4, 6 and 8 (00_scope.md R8). -/
def roundsOf : Nat → Option Nat
  | 4 => some 10
  | 6 => some 12
  | 8 => some 14
  | _ => none

/-- NK is one of the legal values 4, 6 and 8 (10_state.md R30). -/
def legalNk (nk : BitVec 4) : Bool := (roundsOf nk.toNat).isSome

/-- `KEY[0..NK−1]` (30_encoding.md R90; 10_state.md R25). -/
def keyWords (s : State) : List Word := s.key.toList.take s.nk.toNat

/-- The IV as 16 bytes: byte k is `byte(IV[k div 4], k mod 4)` (20_memory.md R65, 43_modes_padding.md R189). -/
def ivBytes (s : State) : Bytes := s.iv.toList.flatMap wordBytes

/-- The message: `INB(0)` to `INB(LEN−1)` (44_commands.md R212). -/
def message (s : State) : Bytes := (List.range s.len.toNat).map (inByte s)

/-- Which message bytes hold `any`: nothing has written them since reset (10_state.md R28, 70_reset_and_hazards.md R273). -/
def unknownBytes (s : State) : List Bool :=
  (List.range s.len.toNat).map fun k => (Memory.lookup (inBase + k) s.mem).isNone

end Sys2Proof.Machine
end

