-- ==== Sys2Proof/Machine/KeySchedule.lean ====
section
/-! DEFINITION. The key schedule (41_key_schedule.md), for Nk = 4, 6 and 8. -/

namespace Sys2Proof.Machine

/-- `RotWord(w)`: a cyclic left rotation by one byte (41_key_schedule.md R142). -/
def rotWord (w : Word) : Word := w <<< 8 ||| w >>> 24

/-- `RC[j]`: RC[0] = 0x01 and RC[j] = xtime(RC[j−1]) (41_key_schedule.md R143). -/
def rc : Nat → Byte
  | 0 => 0x01
  | j + 1 => xtime (rc j)

/-- `RoundConstant[j]`: RC[j] in the most significant byte (41_key_schedule.md R144). -/
def roundConstant (j : Nat) : Word := pack (rc j) 0 0 0

/-- What `temp` becomes before it is XORed into word i (41_key_schedule.md R145, R146). -/
def scheduleTemp (nk i : Nat) (temp : Word) : Word :=
  if i % nk = 0 then subWord (rotWord temp) ^^^ roundConstant (i / nk - 1)
  else if nk > 6 ∧ i % nk = 4 then subWord temp
  else temp

/-- The next word w[i] of an expansion that holds w[0..i−1], i at least Nk: `w[i−Nk] ⊕ temp` (41_key_schedule.md R145). -/
def scheduleWord (nk : Nat) (w : ExpKey) : Word :=
  w.getD (w.length - nk) 0 ^^^ scheduleTemp nk w.length (w.getD (w.length - 1) 0)

/-- The expansion recurrence for `n` more words (41_key_schedule.md R145). -/
def scheduleFrom (nk : Nat) : Nat → ExpKey → ExpKey
  | 0, w => w
  | n + 1, w => scheduleFrom nk n (w ++ [scheduleWord nk w])

/-- `Expand(Nk, key)`: 4·(Nr+1) words, the first Nk the key verbatim; InvalidKeyLength if Nk is none of 4, 6, 8 or the key has
another length (41_key_schedule.md R140, R141, R145, R147). -/
def expand (nk : Nat) (key : List Word) : Except CmdError ExpKey :=
  match roundsOf nk with
  | none => .error .invalidKeyLength
  | some nr =>
    if key.length ≠ nk then .error .invalidKeyLength
    else .ok (scheduleFrom nk (4 * (nr + 1) - nk) key)

end Sys2Proof.Machine
end

