-- ==== Sys2Proof/Machine/Cipher.lean ====
section
/-! DEFINITION. The single-block cipher (42_block_cipher.md): `Cipher` and `InvCipher`. -/

namespace Sys2Proof.Machine

/-- One middle round of the forward cipher: SubBytes, ShiftRows, MixColumns, AddRoundKey (42_block_cipher.md R160). -/
def cipherRound (w : ExpKey) (round : Nat) (S : AesState) : AesState :=
  addRoundKey (mixColumns (shiftRows (subBytes S))) w round

/-- Rounds 1 to n in increasing order (42_block_cipher.md R160). -/
def cipherRounds (w : ExpKey) : Nat → AesState → AesState
  | 0, S => S
  | n + 1, S => cipherRound w (n + 1) (cipherRounds w n S)

/-- `Cipher(S, w, Nr)`: the last round has no MixColumns (42_block_cipher.md R160). -/
def cipher (S : AesState) (w : ExpKey) (nr : Nat) : AesState :=
  addRoundKey (shiftRows (subBytes (cipherRounds w (nr - 1) (addRoundKey S w 0)))) w nr

/-- One middle round of the inverse cipher: InvShiftRows, InvSubBytes, AddRoundKey, InvMixColumns (42_block_cipher.md R161). -/
def invCipherRound (w : ExpKey) (round : Nat) (S : AesState) : AesState :=
  invMixColumns (addRoundKey (invSubBytes (invShiftRows S)) w round)

/-- Rounds n down to 1 (42_block_cipher.md R161). -/
def invCipherRounds (w : ExpKey) : Nat → AesState → AesState
  | 0, S => S
  | n + 1, S => invCipherRounds w n (invCipherRound w (n + 1) S)

/-- `InvCipher(S, w, Nr)`, with InvSubBytes before InvShiftRows in the last step as the source orders them (42_block_cipher.md
R161). -/
def invCipher (S : AesState) (w : ExpKey) (nr : Nat) : AesState :=
  addRoundKey (invShiftRows (invSubBytes (invCipherRounds w (nr - 1) (addRoundKey S w nr)))) w 0

/-- The forward cipher on a 16-byte block. -/
def cipherBlock (w : ExpKey) (nr : Nat) (b : Bytes) : Bytes := stateToBlock (cipher (blockToState b) w nr)

/-- The inverse cipher on a 16-byte block. -/
def invCipherBlock (w : ExpKey) (nr : Nat) (b : Bytes) : Bytes := stateToBlock (invCipher (blockToState b) w nr)

end Sys2Proof.Machine
end

