-- ==== Sys2Proof/Machine/Flags.lean ====
section
/-! DEFINITION. Flags and checks: the register formats CTRL, STATUS, KEYCFG and CAPS (30_encoding.md R85 to R88), the interrupt output
(10_state.md R38), the error codes (60_exceptions.md R240) and the checks in their priority order (R247). -/

namespace Sys2Proof.Machine

/-- One flag as a word. -/
def flagWord (b : Bool) : Word := if b then 1 else 0

/-- CTRL as read: IE in bit 0, the rest zero (30_encoding.md R85). -/
def ctrlWord (s : State) : Word := flagWord s.ie

/-- STATUS as read: `ERR << 4 | WERR << 2 | DONE << 1 | BUSY` (30_encoding.md R86). -/
def statusWord (s : State) : Word :=
  s.err.setWidth 32 <<< 4 ||| flagWord s.werr <<< 2 ||| flagWord s.done <<< 1 ||| flagWord s.busy

/-- KEYCFG as read: NK in bits 3:0 (30_encoding.md R87). -/
def keycfgWord (s : State) : Word := s.nk.setWidth 32

/-- CAPS: BUF_BYTES / 16 in bits 15:0 (10_state.md R33). -/
def capsWord (s : State) : Word := BitVec.ofNat 32 (s.bufBytes.bytes / 16)

/-- The interrupt output: `irq = CTRL.IE & STATUS.DONE` (10_state.md R38, 60_exceptions.md R251). -/
def irq (s : State) : Bool := s.ie && s.done

/-- The error codes of STATUS.ERR (60_exceptions.md R240). -/
def errCode : CmdError → BitVec 4
  | .invalidKeyLength => 1
  | .invalidBlockLength => 2
  | .paddingOverflow => 3
  | .invalidCommand => 4
  | .bufferOverflow => 5

/-- The PKCS#7 pad length for a message of `len` bytes: `16 − (len mod 16)` (43_modes_padding.md R180). -/
def padLength (len : Nat) : Nat := 16 - len % 16

/-- The length check of the encrypt commands: PaddingOverflow, then BufferOverflow on output (60_exceptions.md R247). -/
def checkEncrypt (s : State) : Option CmdError :=
  if 256 ≤ padLength s.len.toNat then some .paddingOverflow
  else if s.bufBytes.bytes < s.len.toNat + padLength s.len.toNat then some .bufferOverflow
  else none

/-- The length check of the decrypt commands (60_exceptions.md R242). -/
def checkDecrypt (s : State) : Option CmdError :=
  if s.len.toNat % 16 ≠ 0 ∨ s.len.toNat = 0 then some .invalidBlockLength else none

/-- The length check of the single-block commands (60_exceptions.md R242). -/
def checkBlock (s : State) : Option CmdError :=
  if s.len.toNat ≠ 16 then some .invalidBlockLength else none

/-- The check of a data command: BufferOverflow on input first, then the check of its own form (60_exceptions.md R247). -/
def checkData (s : State) (rest : Option CmdError) : Option CmdError :=
  if s.bufBytes.bytes < s.len.toNat then some .bufferOverflow else rest

/-- The checks that follow the key check, per command (60_exceptions.md R247). -/
def checkLengths (i : Instr) (s : State) : Option CmdError :=
  match i with
  | .keyexp => none
  | .encEcb => checkData s (checkEncrypt s)
  | .decEcb => checkData s (checkDecrypt s)
  | .encCbc => checkData s (checkEncrypt s)
  | .decCbc => checkData s (checkDecrypt s)
  | .encBlk => checkData s (checkBlock s)
  | .decBlk => checkData s (checkBlock s)

/-- `Check(op)`: the first error in the priority order, none for 0 (60_exceptions.md R247). -/
def check (op : Decoded) (s : State) : Option CmdError :=
  match op with
  | .invalid _ => some .invalidCommand
  | .command i => if legalNk s.nk then checkLengths i s else some .invalidKeyLength

end Sys2Proof.Machine
end

