-- ==== Sys2Proof/Machine/Modes.lean ====
section
/-! DEFINITION. The mode controller (43_modes_padding.md): PKCS#7 padder and unpadder, the block splitter, ECB and CBC, as functions on
byte sequences. -/

namespace Sys2Proof.Machine

/-- `Pad(p)`: n copies of the byte n, with the PaddingOverflow guard of R181 (43_modes_padding.md R180). -/
def pad (p : Bytes) : Except CmdError Bytes :=
  if 256 ≤ padLength p.length then .error .paddingOverflow
  else .ok (p ++ List.replicate (padLength p.length) (BitVec.ofNat 8 (padLength p.length)))

/-- `Unpad(m)`: it trusts the last byte n and drops min(n, |m|) bytes, whatever they hold; its message is never empty
(43_modes_padding.md R185). -/
def unpad (m : Bytes) : Bytes :=
  match m.getLast? with
  | none => []
  | some n => m.take (m.length - min n.toNat m.length)

/-- `Blocks(m)`: block i is bytes 16i to 16i+15 (43_modes_padding.md R182). -/
def blocks (m : Bytes) : List Bytes :=
  (List.range (m.length / 16)).map fun i => (m.drop (16 * i)).take 16

/-- Bytewise XOR of two blocks (43_modes_padding.md R186). -/
def xorBytes (a b : Bytes) : Bytes := List.zipWith (· ^^^ ·) a b

/-- `EcbEnc(p, w, Nr)` (43_modes_padding.md R183). -/
def ecbEnc (p : Bytes) (w : ExpKey) (nr : Nat) : Except CmdError Bytes :=
  match pad p with
  | .error e => .error e
  | .ok q => .ok ((blocks q).flatMap (cipherBlock w nr))

/-- `EcbDecRaw(c, w, Nr)` (43_modes_padding.md R184). -/
def ecbDecRaw (c : Bytes) (w : ExpKey) (nr : Nat) : Bytes :=
  (blocks c).flatMap (invCipherBlock w nr)

/-- CBC encryption of a list of blocks in block order, from the previous ciphertext block or the IV (43_modes_padding.md R186). -/
def cbcEncBlocks (w : ExpKey) (nr : Nat) : Bytes → List Bytes → Bytes
  | _, [] => []
  | prev, b :: bs => cipherBlock w nr (xorBytes b prev) ++ cbcEncBlocks w nr (cipherBlock w nr (xorBytes b prev)) bs

/-- `CbcEnc(p, w, Nr, iv)` (43_modes_padding.md R186). -/
def cbcEnc (p : Bytes) (w : ExpKey) (nr : Nat) (iv : Bytes) : Except CmdError Bytes :=
  match pad p with
  | .error e => .error e
  | .ok q => .ok (cbcEncBlocks w nr iv (blocks q))

/-- CBC decryption of a list of blocks: the XOR operand is the preceding ORIGINAL ciphertext block, or the IV (43_modes_padding.md
R187, R188). -/
def cbcDecBlocks (w : ExpKey) (nr : Nat) : Bytes → List Bytes → Bytes
  | _, [] => []
  | prev, c :: cs => xorBytes (invCipherBlock w nr c) prev ++ cbcDecBlocks w nr c cs

/-- `CbcDecRaw(c, w, Nr, iv)` (43_modes_padding.md R187). -/
def cbcDecRaw (c : Bytes) (w : ExpKey) (nr : Nat) (iv : Bytes) : Bytes :=
  cbcDecBlocks w nr iv (blocks c)

/-! ### Results of an operand that holds `any`

Of `u`, which says which message bytes hold `any`, each function says whether byte k of a result depends on one of them
(70_reset_and_hazards.md R273, 93_implementation_defined.md I2; log entry 19). Bytes of padding and of the IV never do. -/

/-- ECB and the single-block commands: every byte of a block depends on every byte of the message block. -/
def ecbUnknown (u : List Bool) (k : Nat) : Bool := ((u.drop (16 * (k / 16))).take 16).any id

/-- CBC encryption: every byte of a block depends on every message byte up to the end of the block. -/
def cbcEncUnknown (u : List Bool) (k : Nat) : Bool := (u.take (16 * (k / 16 + 1))).any id

/-- CBC decryption: byte k depends on every byte of its ciphertext block and on byte k − 16, the one XORed to it. -/
def cbcDecUnknown (u : List Bool) (k : Nat) : Bool :=
  ecbUnknown u k || (decide (16 ≤ k) && u.getD (k - 16) false)

/-- The bytes of a result from index k on, where each one that depends on an `any` byte is `any` itself: the free byte of a draw made
by this command, which no law ties to its operands. -/
def drawUnknown (unknown : Nat → Bool) (draw : Nat) : Nat → Bytes → Bytes
  | _, [] => []
  | k, b :: bs =>
    (if unknown k then Config.freeByte draw (outBase + k) else b) :: drawUnknown unknown draw (k + 1) bs

/-- The result bytes of a data command from the bytes its operands give: the ones that depend on an unwritten IN byte are free. -/
def drawnResult (unknown : List Bool → Nat → Bool) (s : State) (r : Bytes) : Bytes :=
  drawUnknown (unknown (unknownBytes s)) s.draws 0 r

end Sys2Proof.Machine
end

