-- ==== Sys2Proof/Machine/Commands.lean ====
section
/-! DEFINITION. The meaning of each command (44_commands.md R213 to R219) and of a reserved word (R220), over the common frame of R212.
Every one ends in a next state: an error completes with its code in STATUS.ERR (60_exceptions.md R246). A result byte that depends on
an IN byte nothing has written is a free byte, before any unpadding, so OUTLEN is then computed from a free byte (70_reset_and_hazards.md
R273; log entry 19). -/

namespace Sys2Proof.Machine

/-- The checks, then Nr and the key expansion, before anything is written (44_commands.md R212, 20_memory.md R74). -/
def prepare (i : Instr) (s : State) : Except CmdError (Nat × ExpKey) :=
  match check (.command i) s with
  | some e => .error e
  | none =>
    match roundsOf s.nk.toNat, expand s.nk.toNat (keyWords s) with
    | some nr, .ok w => .ok (nr, w)
    | some _, .error e => .error e
    | none, _ => .error .invalidKeyLength

/-- The frame of a command with no result bytes (44_commands.md R212 with R213): RK and STATUS only. -/
def runKeyOnly (i : Instr) (s : State) : State :=
  match prepare i s with
  | .error e => complete (errCode e) s
  | .ok p => complete 0 (storeRk p.2 s)

/-- The frame of a data command (44_commands.md R212): the result bytes are computed from the operands in `s`, then RK, OUT, OUTLEN and
STATUS are written. An error writes STATUS alone (60_exceptions.md R248). -/
def runData (i : Instr) (result : Nat → ExpKey → State → Except CmdError Bytes) (s : State) : State :=
  match prepare i s with
  | .error e => complete (errCode e) s
  | .ok p =>
    match result p.1 p.2 s with
    | .error e => complete (errCode e) s
    | .ok r => complete 0 (writeOut r (storeRk p.2 s))

/-- KEYEXP (44_commands.md R213). -/
def execKeyexp (s : State) : Host.Outcome State Fault Refusal :=
  .next (runKeyOnly .keyexp s)

/-- ENC_ECB (44_commands.md R214). -/
def execEncEcb (s : State) : Host.Outcome State Fault Refusal :=
  .next (runData .encEcb (fun nr w s =>
    (ecbEnc (message s) w nr).map (drawnResult ecbUnknown s)) s)

/-- DEC_ECB (44_commands.md R215). -/
def execDecEcb (s : State) : Host.Outcome State Fault Refusal :=
  .next (runData .decEcb (fun nr w s =>
    .ok (unpad (drawnResult ecbUnknown s (ecbDecRaw (message s) w nr)))) s)

/-- ENC_CBC (44_commands.md R216). -/
def execEncCbc (s : State) : Host.Outcome State Fault Refusal :=
  .next (runData .encCbc (fun nr w s =>
    (cbcEnc (message s) w nr (ivBytes s)).map (drawnResult cbcEncUnknown s)) s)

/-- DEC_CBC (44_commands.md R217). -/
def execDecCbc (s : State) : Host.Outcome State Fault Refusal :=
  .next (runData .decCbc (fun nr w s =>
    .ok (unpad (drawnResult cbcDecUnknown s (cbcDecRaw (message s) w nr (ivBytes s))))) s)

/-- ENC_BLK (44_commands.md R218). -/
def execEncBlk (s : State) : Host.Outcome State Fault Refusal :=
  .next (runData .encBlk (fun nr w s =>
    .ok (drawnResult ecbUnknown s (cipherBlock w nr ((message s).take 16)))) s)

/-- DEC_BLK (44_commands.md R219). -/
def execDecBlk (s : State) : Host.Outcome State Fault Refusal :=
  .next (runData .decBlk (fun nr w s =>
    .ok (drawnResult ecbUnknown s (invCipherBlock w nr ((message s).take 16)))) s)

/-- A reserved command word: InvalidCommand always, and STATUS alone is written (44_commands.md R220). -/
def execReserved (why : Reject) (s : State) : Host.Outcome State Fault Refusal :=
  match check (.invalid why) s with
  | some e => .next (complete (errCode e) s)
  | none => .next (complete 0 s)

end Sys2Proof.Machine
end

