-- ==== Sys2Proof/Machine/Dispatch.lean ====
section
/-! DEFINITION. The dispatch of a decoded command to its meaning, one arm per constructor of Instr (44_commands.md R212). -/

namespace Sys2Proof.Machine

def exec (i : Instr) (s : State) : Host.Outcome State Fault Refusal :=
  match i with
  | .keyexp => Sys2Proof.Machine.execKeyexp s
  | .encEcb => Sys2Proof.Machine.execEncEcb s
  | .decEcb => Sys2Proof.Machine.execDecEcb s
  | .encCbc => Sys2Proof.Machine.execEncCbc s
  | .decCbc => Sys2Proof.Machine.execDecCbc s
  | .encBlk => Sys2Proof.Machine.execEncBlk s
  | .decBlk => Sys2Proof.Machine.execDecBlk s

end Sys2Proof.Machine
end

