-- ==== Sys2Proof/Machine/Bus.lean ====
section
/-! DEFINITION. The host bus (20_memory.md): the address map, reads, writes and their responses, while idle and while BUSY. -/

namespace Sys2Proof.Machine

/-- A mapped location of the host bus space (20_memory.md R51). -/
inductive Target where
  | ctrl
  | status
  | cmd
  | keycfg
  | len
  | outlen
  | caps
  | key (j : Fin 8)
  | iv (c : Fin 4)
  | rk (i : Fin 60)
  /-- Word k of the IN window. -/
  | inWord (k : Nat)
  /-- Word k of the OUT window. -/
  | outWord (k : Nat)
  deriving DecidableEq, Repr

/-- The control registers, by byte address (20_memory.md R51). -/
def mapControl : Nat → Option Target
  | 0x00 => some .ctrl
  | 0x04 => some .status
  | 0x08 => some .cmd
  | 0x0C => some .keycfg
  | 0x10 => some .len
  | 0x14 => some .outlen
  | 0x18 => some .caps
  | _ => none

/-- The register files KEY, IV and RK, by byte address (20_memory.md R51, R52). -/
def mapFile (a : Nat) : Option Target :=
  if h : 0x20 ≤ a ∧ a < 0x40 then some (.key ⟨(a - 0x20) / 4, by omega⟩)
  else if h : 0x40 ≤ a ∧ a < 0x50 then some (.iv ⟨(a - 0x40) / 4, by omega⟩)
  else if h : 0x100 ≤ a ∧ a < 0x1F0 then some (.rk ⟨(a - 0x100) / 4, by omega⟩)
  else none

/-- The buffer windows, by byte address, for an instance with `buf` bytes in each buffer (20_memory.md R51). -/
def mapBuffer (buf a : Nat) : Option Target :=
  if inBase ≤ a ∧ a < inBase + buf then some (.inWord ((a - inBase) / 4))
  else if outBase ≤ a ∧ a < outBase + buf then some (.outWord ((a - outBase) / 4))
  else none

/-- The address map; none for an unmapped address (20_memory.md R51). -/
def mapAddress (buf a : Nat) : Option Target :=
  if a < 0x20 then mapControl a
  else if a < inBase then mapFile a
  else mapBuffer buf a

/-- The location a transaction reaches: none, so ERROR, if it is unmapped or misaligned or does not enable all four byte lanes
(20_memory.md R57, R58, R69). -/
def target (s : State) (addr : BitVec 18) (lanes : BitVec 4) : Option Target :=
  if addr.toNat % 4 = 0 ∧ lanes = 15 then mapAddress s.bufBytes.bytes addr.toNat else none

/-- The locations a command in flight may be writing: OUTLEN, RK and OUT (20_memory.md R60). -/
def Target.isResult : Target → Bool
  | .outlen | .rk _ | .outWord _ => true
  | .ctrl | .status | .cmd | .keycfg | .len | .caps | .key _ | .iv _ | .inWord _ => false

/-- The locations a host may write while BUSY: CTRL and STATUS (20_memory.md R61). -/
def Target.writableWhileBusy : Target → Bool
  | .ctrl | .status => true
  | .cmd | .keycfg | .len | .outlen | .caps | .key _ | .iv _ | .rk _ | .inWord _ | .outWord _ => false

/-- The word a location holds (20_memory.md R53, R54, R55, R59; the formats are 30_encoding.md R85 to R88). -/
def readTarget (t : Target) (s : State) : Word :=
  match t with
  | .ctrl => ctrlWord s
  | .status => statusWord s
  | .cmd => 0
  | .keycfg => keycfgWord s
  | .len => s.len
  | .outlen => s.outlen
  | .caps => capsWord s
  | .key j => s.key[j]
  | .iv c => s.iv[c]
  | .rk i => s.rk[i].val
  | .inWord k => pack (inByte s (4 * k)) (inByte s (4 * k + 1)) (inByte s (4 * k + 2)) (inByte s (4 * k + 3))
  | .outWord k => pack (outByte s (4 * k)) (outByte s (4 * k + 1)) (outByte s (4 * k + 2)) (outByte s (4 * k + 3))

/-- The effect of a write on a location with BUSY = 0 (20_memory.md R56, R59), and of CTRL and STATUS always (R61). -/
def writeTarget (t : Target) (v : Word) (s : State) : State :=
  match t with
  | .ctrl => { s with ie := v.getLsbD 0 }
  | .status => acknowledge v s
  | .cmd => issue v s
  | .keycfg => { s with nk := v.extractLsb' 0 4 }
  | .len => { s with len := v }
  | .outlen => s
  | .caps => s
  | .key j => { s with key := s.key.set j v }
  | .iv c => { s with iv := s.iv.set c v }
  | .rk _ => s
  | .inWord k => storeInWord k v s
  | .outWord _ => s

/-- `MemRead(addr, 4)` (20_memory.md R55, R57, R60): the response and the state after it. The state changes in the model's draw counter
only, where the value read is `any`. -/
def busRead (addr : BitVec 18) (lanes : BitVec 4) (s : State) : Response × State :=
  match target s addr lanes with
  | none => (.error, s)
  | some t =>
    if s.busy && t.isResult then (.data (Config.freeWord s.draws), { s with draws := s.draws + 1 })
    else (.data (readTarget t s), s)

/-- `MemWrite(addr, 4, v)` (20_memory.md R56, R57, R61). -/
def busWrite (addr : BitVec 18) (lanes : BitVec 4) (v : Word) (s : State) : Response × State :=
  match target s addr lanes with
  | none => (.error, s)
  | some t =>
    if s.busy && !t.writableWhileBusy then (.okay, { s with werr := true })
    else (.okay, writeTarget t v s)

end Sys2Proof.Machine
end

