-- ==== Sys2Proof/Machine/HostAgent.lean ====
section
/-! DEFINITION. The host agent: the lines of a host program (30_encoding.md R92), its macros (R93), and one step of the host. -/

namespace Sys2Proof.Machine

/-! ### Symbolic addresses and macros -/

/-- The byte address of CTRL (20_memory.md R51). -/
def addrCtrl : BitVec 18 := 0x00
/-- The byte address of STATUS (20_memory.md R51). -/
def addrStatus : BitVec 18 := 0x04
/-- The byte address of CMD (20_memory.md R51). -/
def addrCmd : BitVec 18 := 0x08
/-- The byte address of KEYCFG (20_memory.md R51). -/
def addrKeycfg : BitVec 18 := 0x0C
/-- The byte address of LEN (20_memory.md R51). -/
def addrLen : BitVec 18 := 0x10
/-- The byte address of OUTLEN (20_memory.md R51). -/
def addrOutlen : BitVec 18 := 0x14
/-- The byte address of CAPS (20_memory.md R51). -/
def addrCaps : BitVec 18 := 0x18
/-- The byte address of KEY[j] (20_memory.md R52). -/
def addrKey (j : Nat) : BitVec 18 := BitVec.ofNat 18 (0x20 + 4 * j)
/-- The byte address of IV[c] (20_memory.md R52). -/
def addrIv (c : Nat) : BitVec 18 := BitVec.ofNat 18 (0x40 + 4 * c)
/-- The byte address of RK[i] (20_memory.md R52). -/
def addrRk (i : Nat) : BitVec 18 := BitVec.ofNat 18 (0x100 + 4 * i)
/-- `IN+off` (30_encoding.md R92). -/
def addrIn (off : Nat) : BitVec 18 := BitVec.ofNat 18 (inBase + off)
/-- `OUT+off` (30_encoding.md R92). -/
def addrOut (off : Nat) : BitVec 18 := BitVec.ofNat 18 (outBase + off)

/-- `W addr, value`, all four lanes (30_encoding.md R92). -/
def lineW (addr : BitVec 18) (v : Word) : HostOp := .write addr 15 (.lit v)

/-- Writes of consecutive words, 4 bytes apart (30_encoding.md R93). -/
def linesW (base : Nat) : List Word → List HostOp
  | [] => []
  | v :: vs => lineW (BitVec.ofNat 18 base) v :: linesW (base + 4) vs

/-- `RUN mnemonic`: issue, then poll for BUSY = 0 and DONE = 1 (30_encoding.md R93). -/
def macroRun (i : Instr) : List HostOp := [lineW addrCmd (encode i), .poll addrStatus 0x3 0x2]

/-- `ACK`: clear DONE and WERR (30_encoding.md R93). -/
def macroAck : List HostOp := [lineW addrStatus 0x6]

/-- `SETKEY nk, w0, ...` (30_encoding.md R93). -/
def macroSetkey (nk : Word) (ws : List Word) : List HostOp := lineW addrKeycfg nk :: linesW 0x20 ws

/-- `SETIV v0, v1, v2, v3` (30_encoding.md R93). -/
def macroSetiv (v0 v1 v2 v3 : Word) : List HostOp := linesW 0x40 [v0, v1, v2, v3]

/-- `SETMSG L, u0, ...` (30_encoding.md R93). -/
def macroSetmsg (len : Word) (us : List Word) : List HostOp := lineW addrLen len :: linesW inBase us

/-! ### One step of the host -/

/-- What a name is bound to. -/
def lookupVar (x : String) : List (String × Word) → Option Word
  | [] => none
  | p :: ps => if p.1 = x then some p.2 else lookupVar x ps

/-- The value a write line sends. A name that no read has bound is a free value (log entry 9). -/
def hostValue (v : HostVal) (s : State) : Word × State :=
  match v with
  | .lit w => (w, s)
  | .name x =>
    match lookupVar x s.vars with
    | some w => (w, s)
    | none => (Config.freeWord s.draws, { s with draws := s.draws + 1 })

/-- Bind a name to what a read returned: an ERROR returns no value (20_memory.md R57), so it leaves the name unbound. -/
def bindVar (name : Option String) (r : Response) (vars : List (String × Word)) : List (String × Word) :=
  match name with
  | none => vars
  | some x =>
    match r with
    | .data v => (x, v) :: vars.filter fun p => p.1 != x
    | .okay | .error => vars.filter fun p => p.1 != x

/-- A response the host has seen (00_scope.md R18). -/
def observe (r : Response) (s : State) : State := { s with trace := r :: s.trace }

/-- A poll ends when the value read, masked, is the value waited for; an ERROR returns no value and ends none (30_encoding.md R92; log
entry 10). -/
def pollEnds (r : Response) (mask value : Word) : Bool :=
  match r with
  | .data v => v &&& mask == value
  | .okay | .error => false

/-- Put a line back at the head of the host's program: it has not ended. -/
def retry (op : HostOp) (s : State) : State := { s with prog := op :: s.prog }

/-- One line of a host program, already taken from the program (30_encoding.md R92). A poll is one read a step, and a wait for irq is
no transaction (log entry 10). DESIGN CHOICE (log entry 18): a line holds no expected value and no expected response, so
`R <addr> == <value>` and `-> ERROR` run as the plain read or write, and the program goes on whether or not the expectation is met; R92
calls it "the program's expectation" and does not say what a host does when it fails. -/
def runHostOp (op : HostOp) (s : State) : State :=
  match op with
  | .write addr lanes v =>
    let p := busWrite addr lanes (hostValue v s).1 (hostValue v s).2
    observe p.1 p.2
  | .read addr lanes name =>
    let p := busRead addr lanes s
    let t := observe p.1 p.2
    { t with vars := bindVar name p.1 t.vars }
  | .poll addr mask value =>
    let p := busRead addr 15 s
    if pollEnds p.1 mask value then observe p.1 p.2 else retry op (observe p.1 p.2)
  | .waitIrq => if irq s then s else retry op s

/-- One step of the host: its next line, or nothing when it has none (00_scope.md R17; log entry 13). -/
def hostStep (s : State) : State :=
  match s.prog with
  | [] => s
  | op :: rest => runHostOp op { s with prog := rest }

end Sys2Proof.Machine
end

