-- ==== Sys2Proof/Machine/Agents.lean ====
section
/-! DEFINITION. The steps of the three agents (00_scope.md R17): the core's, the host's (HostAgent.lean) and reset's, and whose turn it
is. -/

namespace Sys2Proof.Machine

/-- The core's step: with BUSY = 1, `Execute(PEND_OP)` (44_commands.md R211, R212); with BUSY = 0 it does nothing
(60_exceptions.md R257; log entry 13). -/
def coreStep (s : State) : Host.Outcome State Fault Refusal :=
  if s.busy then
    match decode s.pendOp with
    | .command i => exec i s
    | .invalid why => execReserved why s
  else .next s

/-- The step of the agent whose turn it is. -/
def agentStep (t : Turn) (s : State) : Host.Outcome State Fault Refusal :=
  match t with
  | .host => .next (hostStep s)
  | .core => coreStep s
  | .reset => .next (applyReset s)

/-- Whose turn it is when the list of turns is exhausted: the core's if a command is in flight, else the host's. So every accepted
command completes (44_commands.md R211; log entry 5). -/
def defaultTurn (s : State) : Turn := if s.busy then .core else .host

/-- Whose turn it is: the next of the list, which admits every interleaving of the agents (44_commands.md R211, 60_exceptions.md R252;
log entry 5). -/
def nextTurn (s : State) : Turn :=
  match s.turns with
  | [] => defaultTurn s
  | t :: _ => t

end Sys2Proof.Machine
end

