-- ==== Sys2Proof/Machine/Step.lean ====
section
/-! DEFINITION. One step of the whole machine, and how a command word is placed so that the next step runs it. -/

namespace Sys2Proof.Machine

/-- One step: the agent whose turn it is takes it, and its turn is used up (00_scope.md R17, 44_commands.md R211). -/
def step (s : State) : Host.Outcome State Fault Refusal :=
  agentStep (nextTurn s) { s with turns := s.turns.tail }

/-- `s` with a command word issued and the core's turn next, so that the next step executes it: AESCORE fetches nothing, and the word
it runs is the one a CMD write left in PEND_OP (44_commands.md R210; log entry 17). -/
def State.withFetchWord (s : State) (nbits w : Nat) : State :=
  { issue (BitVec.ofNat 32 (w % 2 ^ nbits)) s with turns := .core :: s.turns }

end Sys2Proof.Machine
end

