-- ==== Sys2Proof/Safety.lean ====
section
/-! DEFINITION. The terms in which claims are stated: the invariant of the machine, what a command leaves unchanged (its frame), what it
writes, and when two states give a command the same operands. -/

namespace Sys2Proof.Machine

/-- A state a run can reach, as far as claims need it. -/
structure State.Inv (s : State) : Prop where
  /-- The memory is in its canonical form. -/
  memWf : Memory.wf s.mem
  /-- Every listed byte is an IN byte, or an OUT byte below OUTLEN. -/
  memMapped : ∀ c ∈ s.mem, (inBase ≤ c.1 ∧ c.1 < inBase + s.bufBytes.bytes) ∨
    (outBase ≤ c.1 ∧ c.1 < outBase + s.outlen.toNat)
  /-- `OUT[0..OUTLEN)` is defined (10_state.md R29). -/
  outDefined : ∀ k, k < s.outlen.toNat → Memory.lookup (outBase + k) s.mem ≠ none
  /-- OUTLEN is at most BUF_BYTES (44_commands.md R212). -/
  outlenFits : s.outlen.toNat ≤ s.bufBytes.bytes
  /-- While a command is in flight, DONE and ERR are clear (44_commands.md R210). -/
  busyClear : s.busy = true → s.done = false ∧ s.err = 0
  /-- ERR is a code the block produces: 6 to 15 are never produced, and PaddingOverflow is never reported (60_exceptions.md R240,
  43_modes_padding.md R181). -/
  errProduced : s.err = 0 ∨ s.err = 1 ∨ s.err = 2 ∨ s.err = 4 ∨ s.err = 5
  /-- Every free value in use was drawn before now, so a later draw is a fresh one. -/
  drawsPast : s.inDraw < s.draws ∧ s.outDraw < s.draws ∧ ∀ (i : Fin 60) (n : Nat), s.rk[i] = .drawn n → n < s.draws

/-- A step that answers a next state: the machine has not stopped. -/
def Runs (o : Host.Outcome State Fault Refusal) : Prop := ∃ t, o = .next t

/-- The frame of every command (10_state.md R41): the core writes none of CTRL, KEYCFG, LEN, KEY, IV, IN, nor WERR, PEND_OP, the
instance, the host or the turns. -/
structure CoreFrame (s t : State) : Prop where
  bufBytes : t.bufBytes = s.bufBytes
  ie : t.ie = s.ie
  werr : t.werr = s.werr
  nk : t.nk = s.nk
  len : t.len = s.len
  pendOp : t.pendOp = s.pendOp
  key : t.key = s.key
  iv : t.iv = s.iv
  prog : t.prog = s.prog
  vars : t.vars = s.vars
  trace : t.trace = s.trace
  turns : t.turns = s.turns
  /-- Every byte of the buffer memory below the OUT window, which is every byte of IN. -/
  inBytes : ∀ a, a < outBase → byteAt t a = byteAt s a

/-- RK, OUTLEN and every byte of OUT are unchanged (60_exceptions.md R248). -/
structure ResultsKept (s t : State) : Prop where
  rk : t.rk = s.rk
  outlen : t.outlen = s.outlen
  outBytes : ∀ a, outBase ≤ a → byteAt t a = byteAt s a

/-- A completion with a code (60_exceptions.md R246). -/
structure CompletedWith (code : BitVec 4) (t : State) : Prop where
  err : t.err = code
  busy : t.busy = false
  done : t.done = true

/-- RK holds the expansion from word 0 on, and its words above it are unchanged (41_key_schedule.md R149). -/
structure RkHolds (w : ExpKey) (s t : State) : Prop where
  written : ∀ i : Fin 60, i.val < w.length → t.rk[i] = .known (w.getD i.val 0)
  above : ∀ i : Fin 60, w.length ≤ i.val → t.rk[i] = s.rk[i]

/-- OUT and OUTLEN hold a result, and every OUT byte at or above OUTLEN is the free byte of a draw of its own that this command made, so
that nothing is known of it (10_state.md R29, 44_commands.md R212). -/
structure OutHolds (r : Bytes) (s t : State) : Prop where
  outlen : t.outlen.toNat = r.length
  bytes : ∀ k, k < r.length → outByte t k = r.getD k 0
  above : ∀ k, r.length ≤ k → k < s.bufBytes.bytes → outByte t k = Config.freeByte (s.draws + 1) (outBase + k)

/-- Everything a data command does when it completes without an error: STATUS, RK, OUT and OUTLEN, and its frame. -/
structure DataResult (w : ExpKey) (r : Bytes) (s t : State) : Prop where
  completed : CompletedWith 0 t
  rk : RkHolds w s t
  out : OutHolds r s t
  frame : CoreFrame s t

/-- Every message byte has been written since reset (70_reset_and_hazards.md R273, step 4). -/
def MessageWritten (s : State) : Prop := ∀ k, k < s.len.toNat → Memory.lookup (inBase + k) s.mem ≠ none

/-- Whether byte k of the result of command `i`, before unpadding, depends on a message byte that holds `any`
(70_reset_and_hazards.md R273). -/
def resultUnknown (i : Instr) (s : State) (k : Nat) : Bool :=
  match i with
  | .keyexp => false
  | .encEcb | .decEcb | .encBlk | .decBlk => ecbUnknown (unknownBytes s) k
  | .encCbc => cbcEncUnknown (unknownBytes s) k
  | .decCbc => cbcDecUnknown (unknownBytes s) k

/-- Two states that agree on every operand command `i` reads (30_encoding.md R90): of the message, on which bytes are written and on
what those hold. The `any` bytes of the two may differ. -/
structure SameOperands (i : Instr) (s t : State) : Prop where
  bufBytes : t.bufBytes = s.bufBytes
  nk : t.nk = s.nk
  key : ∀ j : Fin 8, j.val < s.nk.toNat → t.key[j] = s.key[j]
  len : i ≠ .keyexp → t.len = s.len
  message : i ≠ .keyexp → ∀ k, k < s.len.toNat → Memory.lookup (inBase + k) t.mem = Memory.lookup (inBase + k) s.mem
  iv : i = .encCbc ∨ i = .decCbc → t.iv = s.iv

/-- NK is legal (10_state.md R30). -/
def NkLegal (s : State) : Prop := s.nk = 4 ∨ s.nk = 6 ∨ s.nk = 8

/-- Nr and the expanded key of the command a state would run (44_commands.md R212). -/
def KeySchedule (s : State) (nr : Nat) (w : ExpKey) : Prop :=
  roundsOf s.nk.toNat = some nr ∧ expand s.nk.toNat (keyWords s) = .ok w ∧ w.length = 4 * (nr + 1)

/-- Column c of the State register (00_scope.md R13). -/
def AesState.col (S : AesState) : Nat → Word
  | 0 => S.c0
  | 1 => S.c1
  | 2 => S.c2
  | _ => S.c3

/-- Block i of a byte sequence: bytes 16i to 16i+15 (43_modes_padding.md R182). -/
def blockOf (m : Bytes) (i : Nat) : Bytes := (m.drop (16 * i)).take 16

/-- The bytes of OUT below OUTLEN. -/
def outMessage (s : State) : Bytes := (List.range s.outlen.toNat).map (outByte s)

end Sys2Proof.Machine
end

