-- ==== Sys2Proof/Certificates/Slice0/Obligations.lean ====
section
/-! DEFINITION. The statements for the provers, each from a rule of spec/. -/

open Sys2Proof Sys2Proof.Machine

/-! ### Encoding -/

/-- 30_encoding.md R81: the words written out bit by bit. -/
def Obligations.DecodeWrittenOutWords : Prop :=
  decode 0b00000000000000000000000000000001#32 = .command .keyexp ∧
  decode 0b00000000000000000000000000000010#32 = .command .encEcb ∧
  decode 0b00000000000000000000000000000011#32 = .command .decEcb ∧
  decode 0b00000000000000000000000000000100#32 = .command .encCbc ∧
  decode 0b00000000000000000000000000000101#32 = .command .decCbc ∧
  decode 0b00000000000000000000000000000110#32 = .command .encBlk ∧
  decode 0b00000000000000000000000000000111#32 = .command .decBlk ∧
  decode 0b00000000000000000000000000000000#32 = .invalid .reservedOp ∧
  decode 0b00000000000000000000000000001000#32 = .invalid .reservedOp ∧
  decode 0b00000000000000000000000000010010#32 = .invalid .reservedBits ∧
  decode 0b00010000000000000000000000000010#32 = .invalid .reservedBits

/-- 30_encoding.md R84: exactly the words 1 to 7 decode to a command, each the encoding of its command; every other word is invalid,
by its reserved bits or by its OP. -/
def Obligations.OnlySevenWordsAreCommands : Prop :=
  ∀ w : Word,
    ((∃ i, decode w = .command i) ↔ 1 ≤ w.toNat ∧ w.toNat ≤ 7) ∧
    (∀ i, decode w = .command i ↔ w = encode i) ∧
    (16 ≤ w.toNat → decode w = .invalid .reservedBits) ∧
    (w.toNat = 0 ∨ (8 ≤ w.toNat ∧ w.toNat < 16) → decode w = .invalid .reservedOp)

/-- 30_encoding.md R95: the encoding of a command is its OP zero-extended, and decoding undoes it. -/
def Obligations.DecodeOfEncode : Prop :=
  (encode .keyexp = 1 ∧ encode .encEcb = 2 ∧ encode .decEcb = 3 ∧ encode .encCbc = 4 ∧ encode .decCbc = 5 ∧
    encode .encBlk = 6 ∧ encode .decBlk = 7) ∧
  ∀ i : Instr, encode i = (opOf i).setWidth 32 ∧ decode (encode i) = .command i

/-! ### Registers, the bus and the interrupt -/

/-- 10_state.md R40: the values the table gives after reset. RK, IN and OUT hold `any`: a drawn value in every RK word, no byte of
the buffers listed. (The value of PEND_OP there is the model's choice, log entry 7, and is not stated.) -/
def Obligations.ResetValues : Prop :=
  ctrlWord State.reset = 0 ∧ statusWord State.reset = 0 ∧ keycfgWord State.reset = 0 ∧
  State.reset.len = 0 ∧ State.reset.outlen = 0 ∧
  capsWord State.reset = BitVec.ofNat 32 (State.reset.bufBytes.bytes / 16) ∧
  (∀ j : Fin 8, State.reset.key[j] = 0) ∧ (∀ c : Fin 4, State.reset.iv[c] = 0) ∧
  (∀ i : Fin 60, ∃ n, State.reset.rk[i] = .drawn n) ∧ State.reset.mem = [] ∧ irq State.reset = false

/-- 10_state.md R38: irq is bit 0 of CTRL and bit 1 of STATUS, and 0 after reset. -/
def Obligations.IrqIsEnableAndDone : Prop :=
  (∀ s, irq s = ((ctrlWord s).getLsbD 0 && (statusWord s).getLsbD 1)) ∧ irq State.reset = false

/-- 30_encoding.md R86 with the write-one-to-clear of DONE and WERR (10_state.md R24): where each flag stands in STATUS, the reserved
bits zero, and what a write of STATUS clears. -/
def Obligations.StatusFormat : Prop :=
  ∀ (s : State),
    (statusWord s).getLsbD 0 = s.busy ∧ (statusWord s).getLsbD 1 = s.done ∧ (statusWord s).getLsbD 2 = s.werr ∧
    (statusWord s).getLsbD 3 = false ∧ (statusWord s).extractLsb' 4 4 = s.err ∧ (statusWord s).toNat < 256 ∧
    ∀ v : Word,
      busWrite 0x00004 15 v s =
        (.okay, { s with done := s.done && !v.getLsbD 1, werr := s.werr && !v.getLsbD 2 })

/-- 20_memory.md R56 and R59, BUSY = 0: what a host write does at every mapped address, with its response and its frame. -/
def Obligations.HostWriteWhileIdle : Prop :=
  ∀ (s : State) (v : Word), s.busy = false →
    busWrite 0x00000 15 v s = (.okay, { s with ie := v.getLsbD 0 }) ∧
    busWrite 0x00004 15 v s =
      (.okay, { s with done := s.done && !v.getLsbD 1, werr := s.werr && !v.getLsbD 2 }) ∧
    busWrite 0x00008 15 v s = (.okay, { s with pendOp := v, busy := true, done := false, err := 0 }) ∧
    busWrite 0x0000C 15 v s = (.okay, { s with nk := v.extractLsb' 0 4 }) ∧
    busWrite 0x00010 15 v s = (.okay, { s with len := v }) ∧
    busWrite 0x00014 15 v s = (.okay, s) ∧
    busWrite 0x00018 15 v s = (.okay, s) ∧
    (∀ j : Fin 8, busWrite (BitVec.ofNat 18 (0x20 + 4 * j.val)) 15 v s = (.okay, { s with key := s.key.set j v })) ∧
    (∀ c : Fin 4, busWrite (BitVec.ofNat 18 (0x40 + 4 * c.val)) 15 v s = (.okay, { s with iv := s.iv.set c v })) ∧
    (∀ i : Fin 60, busWrite (BitVec.ofNat 18 (0x100 + 4 * i.val)) 15 v s = (.okay, s)) ∧
    (∀ k, 4 * k < s.bufBytes.bytes → ∃ m,
      busWrite (BitVec.ofNat 18 (0x10000 + 4 * k)) 15 v s = (.okay, { s with mem := m }) ∧
      ∀ a, byteAt { s with mem := m } a =
        if 0x10000 + 4 * k ≤ a ∧ a < 0x10000 + 4 * k + 4 then byteOf v (a - (0x10000 + 4 * k)) else byteAt s a) ∧
    (∀ k, 4 * k < s.bufBytes.bytes → busWrite (BitVec.ofNat 18 (0x20000 + 4 * k)) 15 v s = (.okay, s))

/-- 20_memory.md R61, BUSY = 1: CTRL and STATUS are written, every other mapped address drops the write and sets WERR, an unmapped
one gets ERROR and sets nothing. -/
def Obligations.HostWriteWhileBusy : Prop :=
  ∀ (s : State) (v : Word), s.busy = true →
    busWrite 0x00000 15 v s = (.okay, { s with ie := v.getLsbD 0 }) ∧
    busWrite 0x00004 15 v s =
      (.okay, { s with done := s.done && !v.getLsbD 1, werr := s.werr && !v.getLsbD 2 }) ∧
    ∀ addr : BitVec 18, addr.toNat ≠ 0 → addr.toNat ≠ 4 →
      ((mapAddress s.bufBytes.bytes addr.toNat).isSome → addr.toNat % 4 = 0 →
        busWrite addr 15 v s = (.okay, { s with werr := true })) ∧
      (mapAddress s.bufBytes.bytes addr.toNat = none → busWrite addr 15 v s = (.error, s))

/-- 20_memory.md R55 and R60: the value every mapped address reads as. The operands read exactly at any time and change nothing; the
results read exactly while BUSY = 0. While BUSY = 1 they read as a value the spec calls `any`: that this is the free word of the counter
`draws`, and that the read moves the counter by one and nothing else, is the model's choice (DESIGN CHOICE, log entry 4). -/
def Obligations.HostReads : Prop :=
  ∀ s : State,
    busRead 0x00000 15 s = (.data (ctrlWord s), s) ∧
    busRead 0x00004 15 s = (.data (statusWord s), s) ∧
    busRead 0x00008 15 s = (.data 0, s) ∧
    busRead 0x0000C 15 s = (.data (s.nk.setWidth 32), s) ∧
    busRead 0x00010 15 s = (.data s.len, s) ∧
    busRead 0x00018 15 s = (.data (BitVec.ofNat 32 (s.bufBytes.bytes / 16)), s) ∧
    (∀ j : Fin 8, busRead (BitVec.ofNat 18 (0x20 + 4 * j.val)) 15 s = (.data s.key[j], s)) ∧
    (∀ c : Fin 4, busRead (BitVec.ofNat 18 (0x40 + 4 * c.val)) 15 s = (.data s.iv[c], s)) ∧
    (∀ k, 4 * k < s.bufBytes.bytes → busRead (BitVec.ofNat 18 (0x10000 + 4 * k)) 15 s =
      (.data (pack (inByte s (4 * k)) (inByte s (4 * k + 1)) (inByte s (4 * k + 2)) (inByte s (4 * k + 3))), s)) ∧
    (s.busy = false →
      busRead 0x00014 15 s = (.data s.outlen, s) ∧
      (∀ i : Fin 60, busRead (BitVec.ofNat 18 (0x100 + 4 * i.val)) 15 s = (.data s.rk[i].val, s)) ∧
      (∀ k, 4 * k < s.bufBytes.bytes → busRead (BitVec.ofNat 18 (0x20000 + 4 * k)) 15 s =
        (.data (pack (outByte s (4 * k)) (outByte s (4 * k + 1)) (outByte s (4 * k + 2)) (outByte s (4 * k + 3))), s))) ∧
    (s.busy = true →
      busRead 0x00014 15 s = (.data (Config.freeWord s.draws), { s with draws := s.draws + 1 }) ∧
      (∀ i : Fin 60, busRead (BitVec.ofNat 18 (0x100 + 4 * i.val)) 15 s =
        (.data (Config.freeWord s.draws), { s with draws := s.draws + 1 })) ∧
      (∀ k, 4 * k < s.bufBytes.bytes → busRead (BitVec.ofNat 18 (0x20000 + 4 * k)) 15 s =
        (.data (Config.freeWord s.draws), { s with draws := s.draws + 1 })))

/-- 20_memory.md R57: a transaction that is misaligned, does not enable all four byte lanes, or reaches an address that R51 leaves
unmapped gets ERROR and changes nothing. -/
def Obligations.BadTransactionGetsError : Prop :=
  ∀ (s : State) (addr : BitVec 18) (lanes : BitVec 4) (v : Word),
    (addr.toNat % 4 ≠ 0 ∨ lanes ≠ 15 ∨
      (0x1C ≤ addr.toNat ∧ addr.toNat < 0x20) ∨
      (0x50 ≤ addr.toNat ∧ addr.toNat < 0x100) ∨
      (0x1F0 ≤ addr.toNat ∧ addr.toNat < 0x10000) ∨
      (0x10000 + s.bufBytes.bytes ≤ addr.toNat ∧ addr.toNat < 0x20000) ∨
      (0x20000 + s.bufBytes.bytes ≤ addr.toNat ∧ addr.toNat < 0x30000) ∨
      0x30000 ≤ addr.toNat) →
    busRead addr lanes s = (.error, s) ∧ busWrite addr lanes v s = (.error, s)

/-- 20_memory.md R52: the register-file windows, and no two addresses reach the same location. -/
def Obligations.AddressesDoNotAlias : Prop :=
  ∀ b : BufBytes,
    (∀ j : Fin 8, mapAddress b.bytes (0x00020 + 4 * j.val) = some (.key j)) ∧
    (∀ c : Fin 4, mapAddress b.bytes (0x00040 + 4 * c.val) = some (.iv c)) ∧
    (∀ i : Fin 60, mapAddress b.bytes (0x00100 + 4 * i.val) = some (.rk i)) ∧
    ∀ x y t, x % 4 = 0 → y % 4 = 0 → mapAddress b.bytes x = some t → mapAddress b.bytes y = some t → x = y

/-! ### Issue, completion, errors -/

/-- 44_commands.md R210: a CMD write is accepted while BUSY = 0, whatever the word, and dropped while BUSY = 1; and while a command is
in flight irq is 0. -/
def Obligations.CommandIssue : Prop :=
  (∀ (s : State) (v : Word), s.busy = false →
    busWrite 0x00008 15 v s = (.okay, { s with pendOp := v, busy := true, done := false, err := 0 })) ∧
  (∀ (s : State) (v : Word), s.busy = true → busWrite 0x00008 15 v s = (.okay, { s with werr := true })) ∧
  (∀ s : State, s.Inv → s.busy = true → irq s = false)

/-- 60_exceptions.md R246: completion writes ERR, BUSY and DONE and nothing else, and irq then follows IE. -/
def Obligations.CompletionWritesStatusOnly : Prop :=
  ∀ (code : BitVec 4) (s : State),
    complete code s = { s with err := code, busy := false, done := true } ∧ irq (complete code s) = s.ie

/-- 60_exceptions.md R247: the code a check reports, in the priority order of the rule, for every word and every state. -/
def Obligations.ErrorPriority : Prop :=
  ∀ (d : Decoded) (s : State),
    ((check d s).map errCode).getD 0 =
      match d with
      | .invalid _ => 4
      | .command i =>
        if ¬(s.nk = 4 ∨ s.nk = 6 ∨ s.nk = 8) then 1
        else if i = .keyexp then 0
        else if s.len.toNat > s.bufBytes.bytes then 5
        else if (i = .decEcb ∨ i = .decCbc) ∧ (s.len.toNat % 16 ≠ 0 ∨ s.len.toNat = 0) then 2
        else if (i = .encBlk ∨ i = .decBlk) ∧ s.len.toNat ≠ 16 then 2
        else if (i = .encEcb ∨ i = .encCbc) ∧ 16 - s.len.toNat % 16 ≥ 256 then 3
        else if (i = .encEcb ∨ i = .encCbc) ∧ s.len.toNat + (16 - s.len.toNat % 16) > s.bufBytes.bytes then 5
        else 0

/-- 60_exceptions.md R248: a command whose check finds an error completes with its code and writes nothing but STATUS. -/
def Obligations.FailedCommandWritesStatusOnly : Prop :=
  ∀ (i : Instr) (s : State) (e : CmdError), check (.command i) s = some e →
    ∃ t, exec i s = .next t ∧ CompletedWith (errCode e) t ∧ ResultsKept s t ∧ CoreFrame s t

/-- 60_exceptions.md R241: with NK none of 4, 6, 8, the core step of any command ends in InvalidKeyLength, and in no other case does a
command report it; NK = 0 after reset is such an NK. -/
def Obligations.InvalidKeyLengthOnEveryCommand : Prop :=
  (∀ (s : State) (i : Instr), nextTurn s = .core → s.busy = true → decode s.pendOp = .command i → ¬NkLegal s →
    ∃ t, step s = .next t ∧ CompletedWith 1 t ∧ ResultsKept s t) ∧
  (∀ (i : Instr) (s t : State), exec i s = .next t → (t.err = 1 ↔ ¬NkLegal s)) ∧
  State.reset.nk = 0 ∧ ¬NkLegal State.reset

/-- 60_exceptions.md R242: the length errors of the decrypt and the single-block commands, and that encryption never raises it. -/
def Obligations.InvalidBlockLength : Prop :=
  (∀ (i : Instr) (s : State), i = .decEcb ∨ i = .decCbc → NkLegal s → s.len.toNat ≤ s.bufBytes.bytes →
    s.len.toNat % 16 ≠ 0 ∨ s.len.toNat = 0 → ∃ t, exec i s = .next t ∧ CompletedWith 2 t ∧ ResultsKept s t) ∧
  (∀ (i : Instr) (s : State), i = .encBlk ∨ i = .decBlk → NkLegal s → s.len.toNat ≤ s.bufBytes.bytes →
    s.len.toNat ≠ 16 → ∃ t, exec i s = .next t ∧ CompletedWith 2 t ∧ ResultsKept s t) ∧
  (∀ (i : Instr) (s t : State), i = .encEcb ∨ i = .encCbc → exec i s = .next t → t.err ≠ 2)

/-- 60_exceptions.md R245: a message that does not fit, and an encryption whose padded output does not fit, which is so exactly when
LEN is at least BUF_BYTES. -/
def Obligations.BufferOverflow : Prop :=
  (∀ (i : Instr) (s : State), i ≠ .keyexp → NkLegal s → s.len.toNat > s.bufBytes.bytes →
    ∃ t, exec i s = .next t ∧ CompletedWith 5 t ∧ ResultsKept s t) ∧
  (∀ (i : Instr) (s : State), i = .encEcb ∨ i = .encCbc → NkLegal s →
    s.len.toNat + (16 - s.len.toNat % 16) > s.bufBytes.bytes →
    ∃ t, exec i s = .next t ∧ CompletedWith 5 t ∧ ResultsKept s t) ∧
  (∀ s : State, s.len.toNat + (16 - s.len.toNat % 16) > s.bufBytes.bytes ↔ s.len.toNat ≥ s.bufBytes.bytes)

/-- 43_modes_padding.md R181: the guard and its code 3 are carried, the guard is never met, and no command reports it. -/
def Obligations.PaddingOverflowNeverReported : Prop :=
  errCode .paddingOverflow = 3 ∧
  (∀ p : Bytes, pad p = if 16 - p.length % 16 ≥ 256 then .error .paddingOverflow
    else .ok (p ++ List.replicate (16 - p.length % 16) (BitVec.ofNat 8 (16 - p.length % 16)))) ∧
  (∀ p : Bytes, padLength p.length ≤ 16 ∧ ∃ q, pad p = .ok q) ∧
  ∀ (i : Instr) (s t : State), exec i s = .next t → t.err ≠ 3

/-- 44_commands.md R220: a reserved command word completes with InvalidCommand and changes STATUS alone. -/
def Obligations.ReservedWordIsInvalidCommand : Prop :=
  ∀ s : State, nextTurn s = .core → s.busy = true → s.pendOp.toNat = 0 ∨ 8 ≤ s.pendOp.toNat →
    ∃ t, step s = .next t ∧ CompletedWith 4 t ∧ ResultsKept s t ∧
      CoreFrame { s with turns := s.turns.tail } t

/-! ### The commands: what each completes with, and its frame

The result bytes of a data command pass through `drawnResult`, which frees the ones that depend on an unwritten IN byte (70_reset_and_hazards.md
R273; log entry 19). WrittenMessageGivesDefinedResult says that it changes nothing where the message is written, and
UnwrittenInputGivesFreeResult which bytes it frees. -/

/-- 44_commands.md R213: KEYEXP completes whenever NK is legal: RK holds the expansion, OUT and OUTLEN are unchanged. -/
def Obligations.KeyexpCompletes : Prop :=
  ∀ s : State, NkLegal s → ∃ nr w t, KeySchedule s nr w ∧ exec .keyexp s = .next t ∧ CompletedWith 0 t ∧ RkHolds w s t ∧
    t.outlen = s.outlen ∧ (∀ a, outBase ≤ a → byteAt t a = byteAt s a) ∧ CoreFrame s t

/-- 44_commands.md R214: ENC_ECB completes whenever NK is legal and LEN is below BUF_BYTES, with the padded ECB ciphertext of the
message, free where it depends on an unwritten byte. -/
def Obligations.EncEcbCompletes : Prop :=
  ∀ s : State, NkLegal s → s.len.toNat < s.bufBytes.bytes →
    ∃ nr w r t, KeySchedule s nr w ∧ ecbEnc (message s) w nr = .ok r ∧ r.length = 16 * (s.len.toNat / 16 + 1) ∧
      exec .encEcb s = .next t ∧ DataResult w (drawnResult ecbUnknown s r) s t

/-- 44_commands.md R215: DEC_ECB completes whenever NK is legal and LEN is a positive multiple of 16 that fits, with the unpadded ECB
plaintext; OUTLEN is LEN less min(n, LEN) for the last decrypted byte n, free where it depends on an unwritten byte. -/
def Obligations.DecEcbCompletes : Prop :=
  ∀ s : State, NkLegal s → s.len.toNat ≤ s.bufBytes.bytes → s.len.toNat % 16 = 0 → s.len.toNat ≠ 0 →
    ∃ nr w q n t, KeySchedule s nr w ∧ q = drawnResult ecbUnknown s (ecbDecRaw (message s) w nr) ∧ q.getLast? = some n ∧
      (unpad q).length = s.len.toNat - min n.toNat s.len.toNat ∧ exec .decEcb s = .next t ∧ DataResult w (unpad q) s t

/-- 44_commands.md R216: ENC_CBC completes as ENC_ECB does, with the CBC ciphertext under the IV, which is not updated. -/
def Obligations.EncCbcCompletes : Prop :=
  ∀ s : State, NkLegal s → s.len.toNat < s.bufBytes.bytes →
    ∃ nr w r t, KeySchedule s nr w ∧ cbcEnc (message s) w nr (ivBytes s) = .ok r ∧
      r.length = 16 * (s.len.toNat / 16 + 1) ∧ exec .encCbc s = .next t ∧ DataResult w (drawnResult cbcEncUnknown s r) s t

/-- 44_commands.md R217: DEC_CBC completes as DEC_ECB does, with the unpadded CBC plaintext under the IV. -/
def Obligations.DecCbcCompletes : Prop :=
  ∀ s : State, NkLegal s → s.len.toNat ≤ s.bufBytes.bytes → s.len.toNat % 16 = 0 → s.len.toNat ≠ 0 →
    ∃ nr w q n t, KeySchedule s nr w ∧ q = drawnResult cbcDecUnknown s (cbcDecRaw (message s) w nr (ivBytes s)) ∧
      q.getLast? = some n ∧ (unpad q).length = s.len.toNat - min n.toNat s.len.toNat ∧
      exec .decCbc s = .next t ∧ DataResult w (unpad q) s t

/-- 44_commands.md R218: ENC_BLK completes whenever NK is legal and LEN is 16, with Cipher of the one block; OUTLEN is 16. -/
def Obligations.EncBlkCompletes : Prop :=
  ∀ s : State, NkLegal s → s.len = 16 →
    ∃ nr w t, KeySchedule s nr w ∧ exec .encBlk s = .next t ∧ t.outlen = 16 ∧
      DataResult w (drawnResult ecbUnknown s (stateToBlock (cipher (blockToState (message s)) w nr))) s t

/-- 44_commands.md R219: DEC_BLK completes whenever NK is legal and LEN is 16, with InvCipher of the one block; OUTLEN is 16. -/
def Obligations.DecBlkCompletes : Prop :=
  ∀ s : State, NkLegal s → s.len = 16 →
    ∃ nr w t, KeySchedule s nr w ∧ exec .decBlk s = .next t ∧ t.outlen = 16 ∧
      DataResult w (drawnResult ecbUnknown s (stateToBlock (invCipher (blockToState (message s)) w nr))) s t

/-- 70_reset_and_hazards.md R273: with every message byte written since reset, each data command that completes without an error leaves
in OUT exactly the result its operands give. -/
def Obligations.WrittenMessageGivesDefinedResult : Prop :=
  ∀ (s t : State) (nr : Nat) (w : ExpKey), MessageWritten s → KeySchedule s nr w → t.err = 0 →
    (∀ r, exec .encEcb s = .next t → ecbEnc (message s) w nr = .ok r → outMessage t = r) ∧
    (exec .decEcb s = .next t → outMessage t = unpad (ecbDecRaw (message s) w nr)) ∧
    (∀ r, exec .encCbc s = .next t → cbcEnc (message s) w nr (ivBytes s) = .ok r → outMessage t = r) ∧
    (exec .decCbc s = .next t → outMessage t = unpad (cbcDecRaw (message s) w nr (ivBytes s))) ∧
    (exec .encBlk s = .next t → outMessage t = cipherBlock w nr (message s)) ∧
    (exec .decBlk s = .next t → outMessage t = invCipherBlock w nr (message s))

/-- 70_reset_and_hazards.md R273 and 93_implementation_defined.md I2: if message byte j has not been written since reset, every result
byte that depends on it is a free byte of a draw this command makes (its own block; for ENC_CBC every later block too; for DEC_CBC the byte
it is XORed to), and so is the byte n from which a decryption computes OUTLEN, where it depends on byte j. That the free byte is
`Config.freeByte` of the counter `draws` is the model's choice (DESIGN CHOICE, log entry 4); which bytes depend is DEDUCED (log entry
19). -/
def Obligations.UnwrittenInputGivesFreeResult : Prop :=
  ∀ (i : Instr) (s t : State) (j : Nat), i ≠ .keyexp → j < s.len.toNat → Memory.lookup (inBase + j) s.mem = none →
    exec i s = .next t → t.err = 0 →
    s.draws < t.draws ∧
    (∀ k, k < t.outlen.toNat →
      k / 16 = j / 16 ∨ (i = .encCbc ∧ j / 16 ≤ k / 16) ∨ (i = .decCbc ∧ k = j + 16) →
      outByte t k = Config.freeByte s.draws (outBase + k)) ∧
    ((i = .decEcb ∨ i = .decCbc) → (s.len.toNat - 1) / 16 = j / 16 ∨ (i = .decCbc ∧ s.len.toNat - 1 = j + 16) →
      t.outlen.toNat =
        s.len.toNat - min (Config.freeByte s.draws (outBase + (s.len.toNat - 1))).toNat s.len.toNat)

/-! ### The datapath -/

/-- 40_datapath.md R102: xtime in its two forms, linear, a bijection, and its corner values. -/
def Obligations.XtimeLaws : Prop :=
  (∀ b : Byte, xtime b = if b.getLsbD 7 then ((b.setWidth 9 <<< 1) ^^^ 0x11B#9).setWidth 8 else (b.setWidth 9 <<< 1).setWidth 8) ∧
  (∀ b : Byte, xtime b = b <<< 1 ^^^ if b.getLsbD 7 then 0x1B else 0) ∧
  (∀ a b : Byte, xtime a ^^^ xtime b = xtime (a ^^^ b)) ∧
  Function.Bijective xtime ∧
  (∀ b : Byte, xtime b = 0x1B ↔ b = 0x80) ∧
  xtime 0x00 = 0x00 ∧ xtime 0xFF = 0xE5 ∧ xtime 0x57 = 0xAE ∧ xtime 0xAE = 0x47

/-- 40_datapath.md R109: the two ROMs are inverse permutations, with the check values of R108 and R109. -/
def Obligations.SboxRomsAreInverse : Prop :=
  (∀ b : Byte, invSbox (sbox b) = b) ∧ (∀ b : Byte, sbox (invSbox b) = b) ∧
  sbox 0x00 = 0x63 ∧ sbox 0x01 = 0x7c ∧ sbox 0x53 = 0xed ∧ sbox 0xFF = 0x16 ∧
  invSbox 0x63 = 0x00 ∧ invSbox 0x00 = 0x52 ∧ invSbox 0xed = 0x53 ∧ invSbox 0x16 = 0xff

/-- 40_datapath.md R100 and R101: row r of column c is byte 4c + r, and the two conversions undo each other. -/
def Obligations.ConversionsAreInverse : Prop :=
  (∀ (b : Bytes) (c r : Nat), c < 4 → r < 4 → byteOf ((blockToState b).col c) r = b.getD (4 * c + r) 0) ∧
  (∀ (S : AesState) (c r : Nat), c < 4 → r < 4 → (stateToBlock S).getD (4 * c + r) 0 = byteOf (S.col c) r) ∧
  (∀ b : Bytes, b.length = 16 → stateToBlock (blockToState b) = b) ∧
  (∀ S : AesState, blockToState (stateToBlock S) = S ∧ (stateToBlock S).length = 16)

/-- 40_datapath.md R113 and R114: where every byte of the State goes; no byte changes its row. -/
def Obligations.ShiftRowsMovesColumns : Prop :=
  ∀ (S : AesState) (c i : Nat), c < 4 → i < 4 →
    byteOf ((shiftRows S).col c) i = byteOf (S.col ((c + i) % 4)) i ∧
    byteOf ((invShiftRows S).col c) i = byteOf (S.col ((c + 4 - i) % 4)) i

/-- 40_datapath.md R115: MixColumn is the product by {03}x³+{01}x²+{01}x+{02}, and a column of four equal bytes is a fixed point of
it and of its inverse. -/
def Obligations.MixColumnIsPolynomialProduct : Prop :=
  (∀ (w : Word) (i : Nat), i < 4 →
    byteOf (mixColumn w) i = xtime (byteOf w i) ^^^ (byteOf w ((i + 1) % 4) ^^^ xtime (byteOf w ((i + 1) % 4))) ^^^
      byteOf w ((i + 2) % 4) ^^^ byteOf w ((i + 3) % 4)) ∧
  (∀ b : Byte, mixColumn (pack b b b b) = pack b b b b ∧ invMixColumn (pack b b b b) = pack b b b b) ∧
  mixColumn 0xdb135345 = 0x8e4da1bc ∧ mixColumn 0xd4d4d4d5 = 0xd5d5d7d6

/-- 40_datapath.md R121: every stage is undone by its inverse, and the forward stages and their inverses are bijections. -/
def Obligations.StageInverses : Prop :=
  (∀ S : AesState, invSubBytes (subBytes S) = S ∧ subBytes (invSubBytes S) = S) ∧
  (∀ S : AesState, invShiftRows (shiftRows S) = S ∧ shiftRows (invShiftRows S) = S) ∧
  (∀ S : AesState, invMixColumns (mixColumns S) = S ∧ mixColumns (invMixColumns S) = S) ∧
  (∀ (S : AesState) (w : ExpKey) (r : Nat), addRoundKey (addRoundKey S w r) w r = S)

/-- 42_block_cipher.md R162: InvSubBytes and InvShiftRows commute. -/
def Obligations.InverseStagesCommute : Prop :=
  ∀ S : AesState, invShiftRows (invSubBytes S) = invSubBytes (invShiftRows S)

/-- 41_key_schedule.md R142 and R144: RotWord and the round constants. -/
def Obligations.RotWordAndRoundConstants : Prop :=
  (∀ w : Word, rotWord w = pack (byteOf w 1) (byteOf w 2) (byteOf w 3) (byteOf w 0)) ∧
  (∀ w : Word, rotWord (rotWord (rotWord (rotWord w))) = w) ∧
  (∀ b : Byte, rotWord (pack b b b b) = pack b b b b) ∧
  rotWord 0x09cf4f3c = 0xcf4f3c09 ∧
  (∀ j : Nat, roundConstant j = (rc j).setWidth 32 <<< 24 ∧ roundConstant j = pack (rc j) 0x00 0x00 0x00) ∧
  (List.range 10).map rc = [0x01, 0x02, 0x04, 0x08, 0x10, 0x20, 0x40, 0x80, 0x1b, 0x36]

/-- 00_scope.md R8 and 41_key_schedule.md R145: Nr is 10, 12, 14 for Nk = 4, 6, 8 and undefined for any other Nk, and the expansion has
44, 52, 60 words; its first words, its recurrence at every index, and its error. -/
def Obligations.ExpansionRecurrence : Prop :=
  (roundsOf 4 = some 10 ∧ roundsOf 6 = some 12 ∧ roundsOf 8 = some 14 ∧
    ∀ nk, nk ≠ 4 → nk ≠ 6 → nk ≠ 8 → roundsOf nk = none) ∧
  (∀ key : List Word, key.length = 4 → ∃ w, expand 4 key = .ok w ∧ w.length = 44) ∧
  (∀ key : List Word, key.length = 6 → ∃ w, expand 6 key = .ok w ∧ w.length = 52) ∧
  (∀ key : List Word, key.length = 8 → ∃ w, expand 8 key = .ok w ∧ w.length = 60) ∧
  (∀ (nk nr : Nat) (key : List Word), roundsOf nk = some nr → key.length = nk →
    ∃ w, expand nk key = .ok w ∧ w.length = 4 * (nr + 1) ∧
      (∀ i, i < nk → w.getD i 0 = key.getD i 0) ∧
      ∀ i, nk ≤ i → i < 4 * (nr + 1) →
        w.getD i 0 = w.getD (i - nk) 0 ^^^
          (if i % nk = 0 then subWord (rotWord (w.getD (i - 1) 0)) ^^^ roundConstant (i / nk - 1)
           else if nk > 6 ∧ i % nk = 4 then subWord (w.getD (i - 1) 0)
           else w.getD (i - 1) 0)) ∧
  (∀ (nk : Nat) (key : List Word), (nk ≠ 4 ∧ nk ≠ 6 ∧ nk ≠ 8) ∨ key.length ≠ nk →
    expand nk key = .error .invalidKeyLength)

/-- 42_block_cipher.md R164: Cipher and InvCipher undo each other, for every State, expanded key and number of rounds. -/
def Obligations.CipherAndInverseCancel : Prop :=
  ∀ (S : AesState) (w : ExpKey) (nr : Nat), invCipher (cipher S w nr) w nr = S ∧ cipher (invCipher S w nr) w nr = S

/-- 95_test_vectors.md V1: the source's known-answer vector (FIPS-197 Appendix B), through the key expansion. -/
def Obligations.CipherKnownAnswer : Prop :=
  (expand 4 [0x2b7e1516, 0x28aed2a6, 0xabf71588, 0x09cf4f3c]).map
      (fun w => cipher ⟨0x3243f6a8, 0x885a308d, 0x313198a2, 0xe0370734⟩ w 10) =
    .ok ⟨0x3925841d, 0x02dc09fb, 0xdc118597, 0x196a0b32⟩

/-! ### Padding, ECB and CBC -/

/-- 43_modes_padding.md R180: Pad appends n copies of n, n between 1 and 16, up to the next multiple of 16 strictly above the
length. -/
def Obligations.PadAppendsItsLength : Prop :=
  ∀ p : Bytes, ∃ n, 1 ≤ n ∧ n ≤ 16 ∧ n = 16 - p.length % 16 ∧
    pad p = .ok (p ++ List.replicate n (BitVec.ofNat 8 n)) ∧
    (p ++ List.replicate n (BitVec.ofNat 8 n)).length = 16 * (p.length / 16 + 1)

/-- 43_modes_padding.md R185: Unpad drops as many bytes as the last byte says, whatever they hold; 0 drops nothing, and more than the
length drops everything. -/
def Obligations.UnpadTrustsLastByte : Prop :=
  (∀ (p t : Bytes) (n : Byte), t.getLast? = some n → n.toNat = t.length → unpad (p ++ t) = p) ∧
  (∀ m : Bytes, m.getLast? = some 0 → unpad m = m) ∧
  (∀ (m : Bytes) (n : Byte), m.getLast? = some n → m.length ≤ n.toNat → unpad m = [])

/-- 43_modes_padding.md R183, R184 and 42_block_cipher.md R166: ECB is the cipher on each block by itself. -/
def Obligations.EcbIsBlockwise : Prop :=
  (∀ (p r : Bytes) (w : ExpKey) (nr i : Nat), ecbEnc p w nr = .ok r → i < p.length / 16 + 1 →
    ∃ q, pad p = .ok q ∧ r.length = q.length ∧ blockOf r i = cipherBlock w nr (blockOf q i)) ∧
  (∀ (c : Bytes) (w : ExpKey) (nr i : Nat), c.length % 16 = 0 → i < c.length / 16 →
    (ecbDecRaw c w nr).length = c.length ∧ blockOf (ecbDecRaw c w nr) i = invCipherBlock w nr (blockOf c i))

/-- 43_modes_padding.md R186: each block is XORed with the IV or the previous ciphertext block, then ciphered. -/
def Obligations.CbcEncryptionChains : Prop :=
  ∀ (p r iv : Bytes) (w : ExpKey) (nr i : Nat), iv.length = 16 → cbcEnc p w nr iv = .ok r → i < p.length / 16 + 1 →
    ∃ q, pad p = .ok q ∧ r.length = q.length ∧
      blockOf r i = cipherBlock w nr (xorBytes (blockOf q i) (if i = 0 then iv else blockOf r (i - 1)))

/-- 43_modes_padding.md R187 and R188: each block is deciphered, then XORed with the IV or the previous ORIGINAL ciphertext block. -/
def Obligations.CbcDecryptionChains : Prop :=
  ∀ (c iv : Bytes) (w : ExpKey) (nr i : Nat), iv.length = 16 → c.length % 16 = 0 → i < c.length / 16 →
    (cbcDecRaw c w nr iv).length = c.length ∧
      blockOf (cbcDecRaw c w nr iv) i =
        xorBytes (invCipherBlock w nr (blockOf c i)) (if i = 0 then iv else blockOf c (i - 1))

/-- 43_modes_padding.md R190: the length law and the three round trips. -/
def Obligations.RoundTripLaws : Prop :=
  ∀ (p iv : Bytes) (w : ExpKey) (nr : Nat), iv.length = 16 →
    (∃ q, pad p = .ok q ∧ unpad q = p) ∧
    (∃ r, ecbEnc p w nr = .ok r ∧ r.length = p.length + (16 - p.length % 16) ∧ unpad (ecbDecRaw r w nr) = p) ∧
    (∃ r, cbcEnc p w nr iv = .ok r ∧ r.length = p.length + (16 - p.length % 16) ∧ unpad (cbcDecRaw r w nr iv) = p)

/-- 95_test_vectors.md V3 (Round-trip ECB), as commands: after ENC_ECB of a written message, a state with the same NK and KEY whose
message is written and is the output decrypts back to the message. (Of an unwritten message UnwrittenInputGivesFreeResult says that
there is no such law.) -/
def Obligations.EcbCommandRoundTrip : Prop :=
  ∀ s t u : State, MessageWritten s → MessageWritten u → NkLegal s → s.len.toNat < s.bufBytes.bytes → exec .encEcb s = .next t →
    u.bufBytes = s.bufBytes → u.nk = s.nk → (∀ j : Fin 8, j.val < s.nk.toNat → u.key[j] = s.key[j]) →
    message u = outMessage t →
    ∃ v, exec .decEcb u = .next v ∧ v.err = 0 ∧ outMessage v = message s

/-- 95_test_vectors.md V3 (Round-trip CBC), as commands: as above with the same IV. -/
def Obligations.CbcCommandRoundTrip : Prop :=
  ∀ s t u : State, MessageWritten s → MessageWritten u → NkLegal s → s.len.toNat < s.bufBytes.bytes → exec .encCbc s = .next t →
    u.bufBytes = s.bufBytes → u.nk = s.nk → (∀ j : Fin 8, j.val < s.nk.toNat → u.key[j] = s.key[j]) → u.iv = s.iv →
    message u = outMessage t →
    ∃ v, exec .decCbc u = .next v ∧ v.err = 0 ∧ outMessage v = message s

/-- 44_commands.md R219: DEC_BLK undoes ENC_BLK under the same NK and KEY, on written messages. -/
def Obligations.BlockCommandRoundTrip : Prop :=
  ∀ s t u : State, MessageWritten s → MessageWritten u → NkLegal s → s.len = 16 → exec .encBlk s = .next t →
    u.nk = s.nk → (∀ j : Fin 8, j.val < s.nk.toNat → u.key[j] = s.key[j]) → message u = outMessage t →
    ∃ v, exec .decBlk u = .next v ∧ v.err = 0 ∧ outMessage v = message s

/-! ### The whole machine -/

/-- 44_commands.md R211 and R212: on the core's turn with a command in flight, a step is `exec` of the command PEND_OP decodes to, and
the turn is used up (log entry 5). That a word placed by withFetchWord is the one the next step runs is the model's choice (DESIGN CHOICE,
log entry 17): the spec has no fetch. -/
def Obligations.StepRunsDecodedCommand : Prop :=
  (∀ (s : State) (i : Instr), nextTurn s = .core → s.busy = true → decode s.pendOp = .command i →
    step s = exec i { s with turns := s.turns.tail }) ∧
  (∀ (s : State) (w : Word) (i : Instr), decode w = .command i → step (s.withFetchWord 32 w.toNat) = exec i (issue w s))

/-- The invariant of Safety.lean holds right after reset. -/
def Obligations.InvariantHoldsAtReset : Prop := State.reset.Inv

/-- Every step of every agent keeps the invariant: canonical memory, OUT defined below OUTLEN, OUTLEN within the buffer, DONE and ERR
clear while busy, only the codes the block produces, and only past draws in use. -/
def Obligations.StepKeepsInvariant : Prop :=
  ∀ s t : State, s.Inv → step s = .next t → t.Inv

/-- 93_implementation_defined.md ("No behaviour of AESCORE is `stuck`") and 44_commands.md R211 ("Execute is total"): every step of
every state answers a next state. -/
def Obligations.NoStepStops : Prop :=
  (∀ s : State, Runs (step s)) ∧ ∀ (i : Instr) (s : State), Runs (exec i s)

/-- 44_commands.md R211: every accepted command completes, within one step more than the turns already listed, if reset is not among
them. That the turns end with the core's is the model's choice (log entry 5). -/
def Obligations.AcceptedCommandCompletes : Prop :=
  ∀ s : State, s.busy = true → Turn.reset ∉ s.turns →
    ∃ (k : Nat) (t : State), k ≤ s.turns.length + 1 ∧ Host.Core.run Sys2Proof.core k s = .next t ∧
      t.busy = false ∧ t.done = true

/-- 00_scope.md R19 with 30_encoding.md R90: two states that agree on the operands a command reads complete it with the same code, the
same expansion in RK, and, for a data command, the same OUTLEN and the same bytes below it, except for what the spec marks `any`: the
bytes that depend on an unwritten message byte, and OUTLEN where the byte the unpadder reads does (70_reset_and_hazards.md R273). -/
def Obligations.CommandsDependOnOperandsOnly : Prop :=
  ∀ (i : Instr) (s s' t t' : State), SameOperands i s s' → exec i s = .next t → exec i s' = .next t' →
    t'.err = t.err ∧
    (t.err = 0 →
      (∀ nr, roundsOf s.nk.toNat = some nr → ∀ j : Fin 60, j.val < 4 * (nr + 1) → t'.rk[j] = t.rk[j]) ∧
      (i ≠ .keyexp →
        ((i = .decEcb ∨ i = .decCbc → resultUnknown i s (s.len.toNat - 1) = false) → t'.outlen = t.outlen) ∧
        ∀ k, k < t.outlen.toNat → k < t'.outlen.toNat → resultUnknown i s k = false → outByte t' k = outByte t k))

/-- 10_state.md R41: the core's step writes no operand, and the host's step writes no result. -/
def Obligations.AgentsWriteOnlyTheirState : Prop :=
  (∀ s t : State, step s = .next t → nextTurn s = .core →
    t.ie = s.ie ∧ t.werr = s.werr ∧ t.nk = s.nk ∧ t.len = s.len ∧ t.key = s.key ∧ t.iv = s.iv ∧
    ∀ a, a < outBase → byteAt t a = byteAt s a) ∧
  (∀ s t : State, step s = .next t → nextTurn s = .host →
    t.outlen = s.outlen ∧ t.rk = s.rk ∧ ∀ a, outBase ≤ a → byteAt t a = byteAt s a)

/-- 20_memory.md R73: while a command is in flight no host step changes an operand of it or the command word. -/
def Obligations.OperandsFrozenWhileBusy : Prop :=
  ∀ s t : State, s.busy = true → nextTurn s = .host → step s = .next t →
    t.busy = true ∧ t.pendOp = s.pendOp ∧ t.nk = s.nk ∧ t.len = s.len ∧ t.key = s.key ∧ t.iv = s.iv ∧
    ∀ a, byteAt t a = byteAt s a

/-- 60_exceptions.md R251 and R253: DONE rises only at a completion; it falls only where the host's line is a full-lane write of STATUS
with bit 1 set, where the host issues a command, or at reset; ERR changes only at a completion, at an issue (to 0) or at reset. -/
def Obligations.DoneAndErrChangeOnlyAtTheirEvents : Prop :=
  ∀ s t : State, step s = .next t →
    (s.done = false → t.done = true → nextTurn s = .core ∧ s.busy = true ∧ t.busy = false) ∧
    (s.done = true → t.done = false →
      (nextTurn s = .host ∧ ∃ v rest, s.prog = .write 0x00004 15 v :: rest ∧ (hostValue v s).1.getLsbD 1 = true) ∨
      (nextTurn s = .host ∧ s.busy = false ∧ t.busy = true ∧ t.err = 0) ∨
      nextTurn s = .reset) ∧
    (t.err ≠ s.err →
      (nextTurn s = .core ∧ s.busy = true ∧ t.busy = false) ∨
      (nextTurn s = .host ∧ s.busy = false ∧ t.busy = true ∧ t.err = 0) ∨
      nextTurn s = .reset)

/-- 70_reset_and_hazards.md R270 and R271: reset, a command in flight or not, gives every register its reset value, leaves RK, IN and
OUT to draws not made before, completes nothing. That it touches neither the instance nor the host is the model's choice (DESIGN CHOICE, log entry 12). -/
def Obligations.ResetStep : Prop :=
  ∀ s : State, nextTurn s = .reset →
    ∃ t, step s = .next t ∧ ctrlWord t = 0 ∧ statusWord t = 0 ∧ irq t = false ∧ t.nk = 0 ∧ t.len = 0 ∧ t.outlen = 0 ∧
      (∀ j : Fin 8, t.key[j] = 0) ∧ (∀ c : Fin 4, t.iv[c] = 0) ∧
      (∀ i : Fin 60, ∃ n, s.draws ≤ n ∧ t.rk[i] = .drawn n) ∧
      t.mem = [] ∧ s.draws ≤ t.inDraw ∧ s.draws ≤ t.outDraw ∧
      t.bufBytes = s.bufBytes ∧ t.prog = s.prog ∧ t.vars = s.vars ∧ t.trace = s.trace ∧ t.turns = s.turns.tail

/-- 30_encoding.md R93: from an idle state with no turns listed, `RUN <mnemonic>` issues the command, the core executes it, and the poll
that follows ends: three steps, with the two responses the host sees. That the turns are then the host's, the core's and the host's is
the model's choice (DESIGN CHOICE, log entry 5). -/
def Obligations.RunMacroRunsCommand : Prop :=
  ∀ (s : State) (i : Instr) (rest : List HostOp), s.busy = false → s.turns = [] → s.prog = macroRun i ++ rest →
    ∃ t, exec i { issue (encode i) s with prog := .poll addrStatus 0x3 0x2 :: rest, trace := .okay :: s.trace } = .next t ∧
      Host.Core.run Sys2Proof.core 3 s =
        .next { t with prog := rest, trace := .data (statusWord t) :: t.trace }
end

