-- ==== Sys2Proof/Laws/Memory.lean ====
section
/-! SUPPORT. The laws of the buffer memory: what a read gives after each operation, and that every operation keeps the canonical
form. -/

namespace Sys2Proof.Machine

/-! ### Reads -/

theorem lookup_store (a x : Nat) (b : Byte) (m : Memory) :
    Memory.lookup x (Memory.store a b m) = if x = a then some b else Memory.lookup x m := by
  induction m with
  | nil => simp [Memory.store, Memory.lookup, eq_comm]
  | cons c cs ih =>
    simp only [Memory.store]
    split
    · simp [Memory.lookup, eq_comm]
    · split
      · next h => subst h; by_cases hx : x = c.1 <;> simp [Memory.lookup, hx, eq_comm]
      · next h1 h2 =>
        simp only [Memory.lookup, ih]
        by_cases hx : c.1 = x
        · have : x ≠ a := fun h => h2 (by omega)
          simp [hx, this]
        · simp [hx]

theorem lookup_erase (lo hi x : Nat) (m : Memory) :
    Memory.lookup x (Memory.erase lo hi m) = if lo ≤ x ∧ x < hi then none else Memory.lookup x m := by
  induction m with
  | nil => simp [Memory.erase, Memory.lookup]
  | cons c cs ih =>
    simp only [Memory.erase, List.filter_cons] at ih ⊢
    by_cases hc : lo ≤ c.1 ∧ c.1 < hi
    · have hb : (!(decide (lo ≤ c.1) && decide (c.1 < hi))) = false := by simp [hc]
      rw [hb, if_neg (by simp), ih]
      by_cases hx : lo ≤ x ∧ x < hi
      · simp [hx]
      · have : c.1 ≠ x := fun h => hx (h ▸ hc)
        simp [hx, Memory.lookup, this]
    · have hb : (!(decide (lo ≤ c.1) && decide (c.1 < hi))) = true := by
        simp only [Bool.not_eq_true', Bool.and_eq_false_iff, decide_eq_false_iff_not]; omega
      rw [hb, if_pos rfl]
      simp only [Memory.lookup]
      rw [ih]
      by_cases hx : c.1 = x
      · have : ¬(lo ≤ x ∧ x < hi) := hx ▸ hc
        simp [hx, this]
      · simp [hx]

theorem lookup_storeBytes (bs : Bytes) (a x : Nat) (m : Memory) :
    Memory.lookup x (Memory.storeBytes a bs m) =
      if a ≤ x ∧ x < a + bs.length then some (bs.getD (x - a) 0) else Memory.lookup x m := by
  induction bs generalizing a m with
  | nil =>
    have : ¬(a ≤ x ∧ x < a) := by omega
    simp [Memory.storeBytes, this]
  | cons b bs ih =>
    rw [Memory.storeBytes, ih, lookup_store]
    by_cases h1 : a + 1 ≤ x ∧ x < a + 1 + bs.length
    · have h2 : a ≤ x ∧ x < a + (b :: bs).length := by simp only [List.length_cons]; omega
      obtain ⟨d, rfl⟩ : ∃ d, x = a + 1 + d := ⟨x - (a + 1), by omega⟩
      have e1 : a + 1 + d - (a + 1) = d := by omega
      have e2 : a + 1 + d - a = d + 1 := by omega
      rw [if_pos h1, if_pos h2, e1, e2, List.getD_cons_succ]
    · rw [if_neg h1]
      by_cases hx : x = a
      · subst hx
        simp
      · have h2 : ¬(a ≤ x ∧ x < a + (b :: bs).length) := by simp only [List.length_cons]; omega
        simp only [hx, if_false, if_neg h2]

/-! ### Members and the canonical form -/

theorem mem_store {a : Nat} {b : Byte} {m : Memory} {c : Host.Cell} (h : c ∈ Memory.store a b m) :
    c = (a, b) ∨ c ∈ m := by
  induction m with
  | nil => exact .inl (by simpa [Memory.store] using h)
  | cons d ds ih =>
    simp only [Memory.store] at h
    split at h
    · simpa using h
    · split at h
      · rcases List.mem_cons.1 h with h | h
        · exact .inl h
        · exact .inr (List.mem_cons_of_mem _ h)
      · rcases List.mem_cons.1 h with h | h
        · exact .inr (by simp [h])
        · exact (ih h).imp id (List.mem_cons_of_mem _)

theorem mem_storeBytes {bs : Bytes} {a : Nat} {m : Memory} {c : Host.Cell} (h : c ∈ Memory.storeBytes a bs m) :
    (a ≤ c.1 ∧ c.1 < a + bs.length) ∨ c ∈ m := by
  induction bs generalizing a m with
  | nil => exact .inr h
  | cons b bs ih =>
    rw [Memory.storeBytes] at h
    simp only [List.length_cons]
    rcases ih h with h | h
    · exact .inl (by omega)
    · rcases mem_store h with h | h
      · exact .inl (by subst h; simp)
      · exact .inr h

theorem mem_erase {lo hi : Nat} {m : Memory} {c : Host.Cell} :
    c ∈ Memory.erase lo hi m ↔ c ∈ m ∧ ¬(lo ≤ c.1 ∧ c.1 < hi) := by
  simp only [Memory.erase, List.mem_filter, Bool.not_eq_true', Bool.and_eq_false_iff, decide_eq_false_iff_not]
  constructor <;> rintro ⟨h, hc⟩ <;> exact ⟨h, by omega⟩

theorem wf_store (a : Nat) (b : Byte) (m : Memory) (h : Memory.wf m) : Memory.wf (Memory.store a b m) := by
  induction m with
  | nil => simp [Memory.store]
  | cons c cs ih =>
    have ⟨hc, hcs⟩ := List.pairwise_cons.1 h
    simp only [Memory.store]
    split
    · next hlt =>
      refine List.pairwise_cons.2 ⟨fun d hd => ?_, h⟩
      rcases List.mem_cons.1 hd with rfl | hd
      · exact hlt
      · exact Nat.lt_trans hlt (hc d hd)
    · split
      · next heq => exact List.pairwise_cons.2 ⟨fun d hd => heq ▸ hc d hd, hcs⟩
      · next hne hne' =>
        refine List.pairwise_cons.2 ⟨fun d hd => ?_, ih hcs⟩
        rcases mem_store hd with rfl | hd
        · show c.1 < a; omega
        · exact hc d hd

theorem wf_storeBytes (bs : Bytes) (a : Nat) (m : Memory) (h : Memory.wf m) : Memory.wf (Memory.storeBytes a bs m) := by
  induction bs generalizing a m with
  | nil => exact h
  | cons b bs ih => exact ih _ _ (wf_store a b m h)

theorem wf_erase (lo hi : Nat) (m : Memory) (h : Memory.wf m) : Memory.wf (Memory.erase lo hi m) :=
  h.filter _

/-! ### The bytes of the buffers -/

theorem byteAt_eq_of_lookup {s t : State} {a : Nat} (hm : Memory.lookup a t.mem = Memory.lookup a s.mem)
    (hi : t.inDraw = s.inDraw) (ho : outBase ≤ a → t.outDraw = s.outDraw) : byteAt t a = byteAt s a := by
  have hu : unlistedByte t a = unlistedByte s a := by
    unfold unlistedByte
    split
    · rw [hi]
    · rw [ho (by omega)]
  simp only [byteAt, hm, hu]

theorem byteAt_congr {s t : State} (hm : t.mem = s.mem) (hi : t.inDraw = s.inDraw) (ho : t.outDraw = s.outDraw) (a : Nat) :
    byteAt t a = byteAt s a :=
  byteAt_eq_of_lookup (by rw [hm]) hi fun _ => ho

theorem byteAt_writeOut_below (r : Bytes) (s : State) (a : Nat) (h : a < outBase) : byteAt (writeOut r s) a = byteAt s a := by
  refine byteAt_eq_of_lookup ?_ rfl (by omega)
  have h1 : ¬(outBase ≤ a ∧ a < outBase + r.length) := by omega
  have h2 : ¬(outBase ≤ a ∧ a < outBase + s.bufBytes.bytes) := by omega
  simp only [writeOut, lookup_storeBytes, lookup_erase, if_neg h1, if_neg h2]

theorem outByte_writeOut (r : Bytes) (s : State) (k : Nat) (h : k < r.length) : outByte (writeOut r s) k = r.getD k 0 := by
  have h1 : outBase ≤ outBase + k ∧ outBase + k < outBase + r.length := by omega
  have h2 : outBase + k - outBase = k := by omega
  simp only [outByte, byteAt, writeOut, lookup_storeBytes, if_pos h1, h2]

theorem outByte_writeOut_above (r : Bytes) (s : State) (k : Nat) (h : r.length ≤ k) (hk : k < s.bufBytes.bytes) :
    outByte (writeOut r s) k = Config.freeByte (s.draws + 1) (outBase + k) := by
  have h1 : ¬(outBase ≤ outBase + k ∧ outBase + k < outBase + r.length) := by omega
  have h2 : outBase ≤ outBase + k ∧ outBase + k < outBase + s.bufBytes.bytes := by omega
  have h3 : ¬(outBase + k < outBase) := by omega
  simp only [outByte, byteAt, writeOut, lookup_storeBytes, lookup_erase, if_neg h1, if_pos h2, unlistedByte, if_neg h3]

theorem inByte_storeInWord (k x : Nat) (v : Word) (s : State) :
    inByte (storeInWord k v s) x = if 4 * k ≤ x ∧ x < 4 * k + 4 then byteOf v (x - 4 * k) else inByte s x := by
  simp only [inByte, byteAt, storeInWord, lookup_storeBytes]
  by_cases h : 4 * k ≤ x ∧ x < 4 * k + 4
  · have h1 : inBase + 4 * k ≤ inBase + x ∧ inBase + x < inBase + 4 * k + (wordBytes v).length := by
      simp only [wordBytes, List.length_cons, List.length_nil]; omega
    rw [if_pos h, if_pos h1]
    obtain ⟨d, rfl⟩ : ∃ d, x = 4 * k + d := ⟨x - 4 * k, by omega⟩
    have hd : d = 0 ∨ d = 1 ∨ d = 2 ∨ d = 3 := by omega
    have e : inBase + (4 * k + d) - (inBase + 4 * k) = d := by omega
    rw [e]
    rcases hd with rfl | rfl | rfl | rfl <;> simp [wordBytes]
  · have h1 : ¬(inBase + 4 * k ≤ inBase + x ∧ inBase + x < inBase + 4 * k + (wordBytes v).length) := by
      simp only [wordBytes, List.length_cons, List.length_nil]; omega
    rw [if_neg h, if_neg h1]
    rfl

end Sys2Proof.Machine
end

