-- ==== Sys2Proof/Laws/State.lean ====
section
/-! SUPPORT. What each state update leaves in each field, so that no later proof unfolds a record update. -/

namespace Sys2Proof.Machine

@[simp] theorem issue_bufBytes (v : Word) (s : State) : (issue v s).bufBytes = s.bufBytes := rfl
@[simp] theorem issue_ie (v : Word) (s : State) : (issue v s).ie = s.ie := rfl
@[simp] theorem issue_busy (v : Word) (s : State) : (issue v s).busy = true := rfl
@[simp] theorem issue_done (v : Word) (s : State) : (issue v s).done = false := rfl
@[simp] theorem issue_werr (v : Word) (s : State) : (issue v s).werr = s.werr := rfl
@[simp] theorem issue_err (v : Word) (s : State) : (issue v s).err = 0 := rfl
@[simp] theorem issue_nk (v : Word) (s : State) : (issue v s).nk = s.nk := rfl
@[simp] theorem issue_len (v : Word) (s : State) : (issue v s).len = s.len := rfl
@[simp] theorem issue_outlen (v : Word) (s : State) : (issue v s).outlen = s.outlen := rfl
@[simp] theorem issue_pendOp (v : Word) (s : State) : (issue v s).pendOp = v := rfl
@[simp] theorem issue_key (v : Word) (s : State) : (issue v s).key = s.key := rfl
@[simp] theorem issue_iv (v : Word) (s : State) : (issue v s).iv = s.iv := rfl
@[simp] theorem issue_rk (v : Word) (s : State) : (issue v s).rk = s.rk := rfl
@[simp] theorem issue_mem (v : Word) (s : State) : (issue v s).mem = s.mem := rfl
@[simp] theorem issue_inDraw (v : Word) (s : State) : (issue v s).inDraw = s.inDraw := rfl
@[simp] theorem issue_outDraw (v : Word) (s : State) : (issue v s).outDraw = s.outDraw := rfl
@[simp] theorem issue_draws (v : Word) (s : State) : (issue v s).draws = s.draws := rfl
@[simp] theorem issue_prog (v : Word) (s : State) : (issue v s).prog = s.prog := rfl
@[simp] theorem issue_vars (v : Word) (s : State) : (issue v s).vars = s.vars := rfl
@[simp] theorem issue_trace (v : Word) (s : State) : (issue v s).trace = s.trace := rfl
@[simp] theorem issue_turns (v : Word) (s : State) : (issue v s).turns = s.turns := rfl

@[simp] theorem complete_bufBytes (c : BitVec 4) (s : State) : (complete c s).bufBytes = s.bufBytes := rfl
@[simp] theorem complete_ie (c : BitVec 4) (s : State) : (complete c s).ie = s.ie := rfl
@[simp] theorem complete_busy (c : BitVec 4) (s : State) : (complete c s).busy = false := rfl
@[simp] theorem complete_done (c : BitVec 4) (s : State) : (complete c s).done = true := rfl
@[simp] theorem complete_werr (c : BitVec 4) (s : State) : (complete c s).werr = s.werr := rfl
@[simp] theorem complete_err (c : BitVec 4) (s : State) : (complete c s).err = c := rfl
@[simp] theorem complete_nk (c : BitVec 4) (s : State) : (complete c s).nk = s.nk := rfl
@[simp] theorem complete_len (c : BitVec 4) (s : State) : (complete c s).len = s.len := rfl
@[simp] theorem complete_outlen (c : BitVec 4) (s : State) : (complete c s).outlen = s.outlen := rfl
@[simp] theorem complete_pendOp (c : BitVec 4) (s : State) : (complete c s).pendOp = s.pendOp := rfl
@[simp] theorem complete_key (c : BitVec 4) (s : State) : (complete c s).key = s.key := rfl
@[simp] theorem complete_iv (c : BitVec 4) (s : State) : (complete c s).iv = s.iv := rfl
@[simp] theorem complete_rk (c : BitVec 4) (s : State) : (complete c s).rk = s.rk := rfl
@[simp] theorem complete_mem (c : BitVec 4) (s : State) : (complete c s).mem = s.mem := rfl
@[simp] theorem complete_inDraw (c : BitVec 4) (s : State) : (complete c s).inDraw = s.inDraw := rfl
@[simp] theorem complete_outDraw (c : BitVec 4) (s : State) : (complete c s).outDraw = s.outDraw := rfl
@[simp] theorem complete_draws (c : BitVec 4) (s : State) : (complete c s).draws = s.draws := rfl
@[simp] theorem complete_prog (c : BitVec 4) (s : State) : (complete c s).prog = s.prog := rfl
@[simp] theorem complete_vars (c : BitVec 4) (s : State) : (complete c s).vars = s.vars := rfl
@[simp] theorem complete_trace (c : BitVec 4) (s : State) : (complete c s).trace = s.trace := rfl
@[simp] theorem complete_turns (c : BitVec 4) (s : State) : (complete c s).turns = s.turns := rfl

@[simp] theorem acknowledge_bufBytes (v : Word) (s : State) : (acknowledge v s).bufBytes = s.bufBytes := rfl
@[simp] theorem acknowledge_ie (v : Word) (s : State) : (acknowledge v s).ie = s.ie := rfl
@[simp] theorem acknowledge_busy (v : Word) (s : State) : (acknowledge v s).busy = s.busy := rfl
@[simp] theorem acknowledge_done (v : Word) (s : State) : (acknowledge v s).done = (if v.getLsbD 1 then false else s.done) := rfl
@[simp] theorem acknowledge_werr (v : Word) (s : State) : (acknowledge v s).werr = (if v.getLsbD 2 then false else s.werr) := rfl
@[simp] theorem acknowledge_err (v : Word) (s : State) : (acknowledge v s).err = s.err := rfl
@[simp] theorem acknowledge_nk (v : Word) (s : State) : (acknowledge v s).nk = s.nk := rfl
@[simp] theorem acknowledge_len (v : Word) (s : State) : (acknowledge v s).len = s.len := rfl
@[simp] theorem acknowledge_outlen (v : Word) (s : State) : (acknowledge v s).outlen = s.outlen := rfl
@[simp] theorem acknowledge_pendOp (v : Word) (s : State) : (acknowledge v s).pendOp = s.pendOp := rfl
@[simp] theorem acknowledge_key (v : Word) (s : State) : (acknowledge v s).key = s.key := rfl
@[simp] theorem acknowledge_iv (v : Word) (s : State) : (acknowledge v s).iv = s.iv := rfl
@[simp] theorem acknowledge_rk (v : Word) (s : State) : (acknowledge v s).rk = s.rk := rfl
@[simp] theorem acknowledge_mem (v : Word) (s : State) : (acknowledge v s).mem = s.mem := rfl
@[simp] theorem acknowledge_inDraw (v : Word) (s : State) : (acknowledge v s).inDraw = s.inDraw := rfl
@[simp] theorem acknowledge_outDraw (v : Word) (s : State) : (acknowledge v s).outDraw = s.outDraw := rfl
@[simp] theorem acknowledge_draws (v : Word) (s : State) : (acknowledge v s).draws = s.draws := rfl
@[simp] theorem acknowledge_prog (v : Word) (s : State) : (acknowledge v s).prog = s.prog := rfl
@[simp] theorem acknowledge_vars (v : Word) (s : State) : (acknowledge v s).vars = s.vars := rfl
@[simp] theorem acknowledge_trace (v : Word) (s : State) : (acknowledge v s).trace = s.trace := rfl
@[simp] theorem acknowledge_turns (v : Word) (s : State) : (acknowledge v s).turns = s.turns := rfl

@[simp] theorem storeRk_bufBytes (w : ExpKey) (s : State) : (storeRk w s).bufBytes = s.bufBytes := rfl
@[simp] theorem storeRk_ie (w : ExpKey) (s : State) : (storeRk w s).ie = s.ie := rfl
@[simp] theorem storeRk_busy (w : ExpKey) (s : State) : (storeRk w s).busy = s.busy := rfl
@[simp] theorem storeRk_done (w : ExpKey) (s : State) : (storeRk w s).done = s.done := rfl
@[simp] theorem storeRk_werr (w : ExpKey) (s : State) : (storeRk w s).werr = s.werr := rfl
@[simp] theorem storeRk_err (w : ExpKey) (s : State) : (storeRk w s).err = s.err := rfl
@[simp] theorem storeRk_nk (w : ExpKey) (s : State) : (storeRk w s).nk = s.nk := rfl
@[simp] theorem storeRk_len (w : ExpKey) (s : State) : (storeRk w s).len = s.len := rfl
@[simp] theorem storeRk_outlen (w : ExpKey) (s : State) : (storeRk w s).outlen = s.outlen := rfl
@[simp] theorem storeRk_pendOp (w : ExpKey) (s : State) : (storeRk w s).pendOp = s.pendOp := rfl
@[simp] theorem storeRk_key (w : ExpKey) (s : State) : (storeRk w s).key = s.key := rfl
@[simp] theorem storeRk_iv (w : ExpKey) (s : State) : (storeRk w s).iv = s.iv := rfl
@[simp] theorem storeRk_rk (w : ExpKey) (s : State) : (storeRk w s).rk = storeCells 0 w s.rk := rfl
@[simp] theorem storeRk_mem (w : ExpKey) (s : State) : (storeRk w s).mem = s.mem := rfl
@[simp] theorem storeRk_inDraw (w : ExpKey) (s : State) : (storeRk w s).inDraw = s.inDraw := rfl
@[simp] theorem storeRk_outDraw (w : ExpKey) (s : State) : (storeRk w s).outDraw = s.outDraw := rfl
@[simp] theorem storeRk_draws (w : ExpKey) (s : State) : (storeRk w s).draws = s.draws := rfl
@[simp] theorem storeRk_prog (w : ExpKey) (s : State) : (storeRk w s).prog = s.prog := rfl
@[simp] theorem storeRk_vars (w : ExpKey) (s : State) : (storeRk w s).vars = s.vars := rfl
@[simp] theorem storeRk_trace (w : ExpKey) (s : State) : (storeRk w s).trace = s.trace := rfl
@[simp] theorem storeRk_turns (w : ExpKey) (s : State) : (storeRk w s).turns = s.turns := rfl

@[simp] theorem writeOut_bufBytes (r : Bytes) (s : State) : (writeOut r s).bufBytes = s.bufBytes := rfl
@[simp] theorem writeOut_ie (r : Bytes) (s : State) : (writeOut r s).ie = s.ie := rfl
@[simp] theorem writeOut_busy (r : Bytes) (s : State) : (writeOut r s).busy = s.busy := rfl
@[simp] theorem writeOut_done (r : Bytes) (s : State) : (writeOut r s).done = s.done := rfl
@[simp] theorem writeOut_werr (r : Bytes) (s : State) : (writeOut r s).werr = s.werr := rfl
@[simp] theorem writeOut_err (r : Bytes) (s : State) : (writeOut r s).err = s.err := rfl
@[simp] theorem writeOut_nk (r : Bytes) (s : State) : (writeOut r s).nk = s.nk := rfl
@[simp] theorem writeOut_len (r : Bytes) (s : State) : (writeOut r s).len = s.len := rfl
@[simp] theorem writeOut_outlen (r : Bytes) (s : State) : (writeOut r s).outlen = BitVec.ofNat 32 r.length := rfl
@[simp] theorem writeOut_pendOp (r : Bytes) (s : State) : (writeOut r s).pendOp = s.pendOp := rfl
@[simp] theorem writeOut_key (r : Bytes) (s : State) : (writeOut r s).key = s.key := rfl
@[simp] theorem writeOut_iv (r : Bytes) (s : State) : (writeOut r s).iv = s.iv := rfl
@[simp] theorem writeOut_rk (r : Bytes) (s : State) : (writeOut r s).rk = s.rk := rfl
@[simp] theorem writeOut_mem (r : Bytes) (s : State) : (writeOut r s).mem = Memory.storeBytes outBase r (Memory.erase outBase (outBase + s.bufBytes.bytes) s.mem) := rfl
@[simp] theorem writeOut_inDraw (r : Bytes) (s : State) : (writeOut r s).inDraw = s.inDraw := rfl
@[simp] theorem writeOut_outDraw (r : Bytes) (s : State) : (writeOut r s).outDraw = s.draws + 1 := rfl
@[simp] theorem writeOut_draws (r : Bytes) (s : State) : (writeOut r s).draws = s.draws + 2 := rfl
@[simp] theorem writeOut_prog (r : Bytes) (s : State) : (writeOut r s).prog = s.prog := rfl
@[simp] theorem writeOut_vars (r : Bytes) (s : State) : (writeOut r s).vars = s.vars := rfl
@[simp] theorem writeOut_trace (r : Bytes) (s : State) : (writeOut r s).trace = s.trace := rfl
@[simp] theorem writeOut_turns (r : Bytes) (s : State) : (writeOut r s).turns = s.turns := rfl

@[simp] theorem storeInWord_bufBytes (k : Nat) (v : Word) (s : State) : (storeInWord k v s).bufBytes = s.bufBytes := rfl
@[simp] theorem storeInWord_ie (k : Nat) (v : Word) (s : State) : (storeInWord k v s).ie = s.ie := rfl
@[simp] theorem storeInWord_busy (k : Nat) (v : Word) (s : State) : (storeInWord k v s).busy = s.busy := rfl
@[simp] theorem storeInWord_done (k : Nat) (v : Word) (s : State) : (storeInWord k v s).done = s.done := rfl
@[simp] theorem storeInWord_werr (k : Nat) (v : Word) (s : State) : (storeInWord k v s).werr = s.werr := rfl
@[simp] theorem storeInWord_err (k : Nat) (v : Word) (s : State) : (storeInWord k v s).err = s.err := rfl
@[simp] theorem storeInWord_nk (k : Nat) (v : Word) (s : State) : (storeInWord k v s).nk = s.nk := rfl
@[simp] theorem storeInWord_len (k : Nat) (v : Word) (s : State) : (storeInWord k v s).len = s.len := rfl
@[simp] theorem storeInWord_outlen (k : Nat) (v : Word) (s : State) : (storeInWord k v s).outlen = s.outlen := rfl
@[simp] theorem storeInWord_pendOp (k : Nat) (v : Word) (s : State) : (storeInWord k v s).pendOp = s.pendOp := rfl
@[simp] theorem storeInWord_key (k : Nat) (v : Word) (s : State) : (storeInWord k v s).key = s.key := rfl
@[simp] theorem storeInWord_iv (k : Nat) (v : Word) (s : State) : (storeInWord k v s).iv = s.iv := rfl
@[simp] theorem storeInWord_rk (k : Nat) (v : Word) (s : State) : (storeInWord k v s).rk = s.rk := rfl
@[simp] theorem storeInWord_mem (k : Nat) (v : Word) (s : State) : (storeInWord k v s).mem = Memory.storeBytes (inBase + 4 * k) (wordBytes v) s.mem := rfl
@[simp] theorem storeInWord_inDraw (k : Nat) (v : Word) (s : State) : (storeInWord k v s).inDraw = s.inDraw := rfl
@[simp] theorem storeInWord_outDraw (k : Nat) (v : Word) (s : State) : (storeInWord k v s).outDraw = s.outDraw := rfl
@[simp] theorem storeInWord_draws (k : Nat) (v : Word) (s : State) : (storeInWord k v s).draws = s.draws := rfl
@[simp] theorem storeInWord_prog (k : Nat) (v : Word) (s : State) : (storeInWord k v s).prog = s.prog := rfl
@[simp] theorem storeInWord_vars (k : Nat) (v : Word) (s : State) : (storeInWord k v s).vars = s.vars := rfl
@[simp] theorem storeInWord_trace (k : Nat) (v : Word) (s : State) : (storeInWord k v s).trace = s.trace := rfl
@[simp] theorem storeInWord_turns (k : Nat) (v : Word) (s : State) : (storeInWord k v s).turns = s.turns := rfl

@[simp] theorem observe_bufBytes (r : Response) (s : State) : (observe r s).bufBytes = s.bufBytes := rfl
@[simp] theorem observe_ie (r : Response) (s : State) : (observe r s).ie = s.ie := rfl
@[simp] theorem observe_busy (r : Response) (s : State) : (observe r s).busy = s.busy := rfl
@[simp] theorem observe_done (r : Response) (s : State) : (observe r s).done = s.done := rfl
@[simp] theorem observe_werr (r : Response) (s : State) : (observe r s).werr = s.werr := rfl
@[simp] theorem observe_err (r : Response) (s : State) : (observe r s).err = s.err := rfl
@[simp] theorem observe_nk (r : Response) (s : State) : (observe r s).nk = s.nk := rfl
@[simp] theorem observe_len (r : Response) (s : State) : (observe r s).len = s.len := rfl
@[simp] theorem observe_outlen (r : Response) (s : State) : (observe r s).outlen = s.outlen := rfl
@[simp] theorem observe_pendOp (r : Response) (s : State) : (observe r s).pendOp = s.pendOp := rfl
@[simp] theorem observe_key (r : Response) (s : State) : (observe r s).key = s.key := rfl
@[simp] theorem observe_iv (r : Response) (s : State) : (observe r s).iv = s.iv := rfl
@[simp] theorem observe_rk (r : Response) (s : State) : (observe r s).rk = s.rk := rfl
@[simp] theorem observe_mem (r : Response) (s : State) : (observe r s).mem = s.mem := rfl
@[simp] theorem observe_inDraw (r : Response) (s : State) : (observe r s).inDraw = s.inDraw := rfl
@[simp] theorem observe_outDraw (r : Response) (s : State) : (observe r s).outDraw = s.outDraw := rfl
@[simp] theorem observe_draws (r : Response) (s : State) : (observe r s).draws = s.draws := rfl
@[simp] theorem observe_prog (r : Response) (s : State) : (observe r s).prog = s.prog := rfl
@[simp] theorem observe_vars (r : Response) (s : State) : (observe r s).vars = s.vars := rfl
@[simp] theorem observe_trace (r : Response) (s : State) : (observe r s).trace = r :: s.trace := rfl
@[simp] theorem observe_turns (r : Response) (s : State) : (observe r s).turns = s.turns := rfl

@[simp] theorem retry_bufBytes (op : HostOp) (s : State) : (retry op s).bufBytes = s.bufBytes := rfl
@[simp] theorem retry_ie (op : HostOp) (s : State) : (retry op s).ie = s.ie := rfl
@[simp] theorem retry_busy (op : HostOp) (s : State) : (retry op s).busy = s.busy := rfl
@[simp] theorem retry_done (op : HostOp) (s : State) : (retry op s).done = s.done := rfl
@[simp] theorem retry_werr (op : HostOp) (s : State) : (retry op s).werr = s.werr := rfl
@[simp] theorem retry_err (op : HostOp) (s : State) : (retry op s).err = s.err := rfl
@[simp] theorem retry_nk (op : HostOp) (s : State) : (retry op s).nk = s.nk := rfl
@[simp] theorem retry_len (op : HostOp) (s : State) : (retry op s).len = s.len := rfl
@[simp] theorem retry_outlen (op : HostOp) (s : State) : (retry op s).outlen = s.outlen := rfl
@[simp] theorem retry_pendOp (op : HostOp) (s : State) : (retry op s).pendOp = s.pendOp := rfl
@[simp] theorem retry_key (op : HostOp) (s : State) : (retry op s).key = s.key := rfl
@[simp] theorem retry_iv (op : HostOp) (s : State) : (retry op s).iv = s.iv := rfl
@[simp] theorem retry_rk (op : HostOp) (s : State) : (retry op s).rk = s.rk := rfl
@[simp] theorem retry_mem (op : HostOp) (s : State) : (retry op s).mem = s.mem := rfl
@[simp] theorem retry_inDraw (op : HostOp) (s : State) : (retry op s).inDraw = s.inDraw := rfl
@[simp] theorem retry_outDraw (op : HostOp) (s : State) : (retry op s).outDraw = s.outDraw := rfl
@[simp] theorem retry_draws (op : HostOp) (s : State) : (retry op s).draws = s.draws := rfl
@[simp] theorem retry_prog (op : HostOp) (s : State) : (retry op s).prog = op :: s.prog := rfl
@[simp] theorem retry_vars (op : HostOp) (s : State) : (retry op s).vars = s.vars := rfl
@[simp] theorem retry_trace (op : HostOp) (s : State) : (retry op s).trace = s.trace := rfl
@[simp] theorem retry_turns (op : HostOp) (s : State) : (retry op s).turns = s.turns := rfl

@[simp] theorem applyReset_bufBytes (s : State) : (applyReset s).bufBytes = s.bufBytes := rfl
@[simp] theorem applyReset_ie (s : State) : (applyReset s).ie = false := rfl
@[simp] theorem applyReset_busy (s : State) : (applyReset s).busy = false := rfl
@[simp] theorem applyReset_done (s : State) : (applyReset s).done = false := rfl
@[simp] theorem applyReset_werr (s : State) : (applyReset s).werr = false := rfl
@[simp] theorem applyReset_err (s : State) : (applyReset s).err = 0 := rfl
@[simp] theorem applyReset_nk (s : State) : (applyReset s).nk = 0 := rfl
@[simp] theorem applyReset_len (s : State) : (applyReset s).len = 0 := rfl
@[simp] theorem applyReset_outlen (s : State) : (applyReset s).outlen = 0 := rfl
@[simp] theorem applyReset_pendOp (s : State) : (applyReset s).pendOp = 0 := rfl
@[simp] theorem applyReset_key (s : State) : (applyReset s).key = Vector.replicate 8 0 := rfl
@[simp] theorem applyReset_iv (s : State) : (applyReset s).iv = Vector.replicate 4 0 := rfl
@[simp] theorem applyReset_rk (s : State) : (applyReset s).rk = drawnCells s.draws := rfl
@[simp] theorem applyReset_mem (s : State) : (applyReset s).mem = [] := rfl
@[simp] theorem applyReset_inDraw (s : State) : (applyReset s).inDraw = s.draws + 60 := rfl
@[simp] theorem applyReset_outDraw (s : State) : (applyReset s).outDraw = s.draws + 61 := rfl
@[simp] theorem applyReset_draws (s : State) : (applyReset s).draws = s.draws + 62 := rfl
@[simp] theorem applyReset_prog (s : State) : (applyReset s).prog = s.prog := rfl
@[simp] theorem applyReset_vars (s : State) : (applyReset s).vars = s.vars := rfl
@[simp] theorem applyReset_trace (s : State) : (applyReset s).trace = s.trace := rfl
@[simp] theorem applyReset_turns (s : State) : (applyReset s).turns = s.turns := rfl

end Sys2Proof.Machine
end

