-- ==== Sys2Proof/Laws/Ops.lean ====
section
/-! SUPPORT. What each shared operation can do, said once: the RK write-back, the checks, the preparation of a command and its frame. -/

namespace Sys2Proof.Machine

/-! ### The RK words -/

theorem storeCells_get (ws : List Word) (i : Nat) (v : Vector Cell 60) (j : Nat) (hj : j < 60) :
    (storeCells i ws v)[j] = if i ≤ j ∧ j < i + ws.length then .known (ws.getD (j - i) 0) else v[j] := by
  induction ws generalizing i v with
  | nil =>
    have : ¬(i ≤ j ∧ j < i) := by omega
    simp [storeCells, this]
  | cons w ws ih =>
    rw [storeCells, ih]
    by_cases h1 : i + 1 ≤ j ∧ j < i + 1 + ws.length
    · have h2 : i ≤ j ∧ j < i + (w :: ws).length := by simp only [List.length_cons]; omega
      obtain ⟨d, rfl⟩ : ∃ d, j = i + 1 + d := ⟨j - (i + 1), by omega⟩
      have e1 : i + 1 + d - (i + 1) = d := by omega
      have e2 : i + 1 + d - i = d + 1 := by omega
      rw [if_pos h1, if_pos h2, e1, e2, List.getD_cons_succ]
    · rw [if_neg h1]
      by_cases hx : i = j
      · subst hx
        simp
      · have h2 : ¬(i ≤ j ∧ j < i + (w :: ws).length) := by simp only [List.length_cons]; omega
        rw [if_neg h2, Vector.getElem_setIfInBounds_ne _ hx]

/-! ### The key schedule's lengths -/

theorem scheduleFrom_length (nk n : Nat) (w : ExpKey) : (scheduleFrom nk n w).length = w.length + n := by
  induction n generalizing w with
  | zero => rfl
  | succ n ih => rw [scheduleFrom, ih, List.length_append]; simp only [List.length_singleton]; omega

theorem roundsOf_cases {nk nr : Nat} (h : roundsOf nk = some nr) :
    (nk = 4 ∧ nr = 10) ∨ (nk = 6 ∧ nr = 12) ∨ (nk = 8 ∧ nr = 14) := by
  unfold roundsOf at h
  split at h <;> simp_all

theorem keyWords_length (s : State) (h : s.nk.toNat ≤ 8) : (keyWords s).length = s.nk.toNat := by
  simp [keyWords, h]

/-- The expansion of a legal key: the schedule from the key on, 4·(Nr+1) words. -/
theorem expand_legal {nk nr : Nat} {key : List Word} (h : roundsOf nk = some nr) (hk : key.length = nk) :
    expand nk key = .ok (scheduleFrom nk (4 * (nr + 1) - nk) key) ∧
      (scheduleFrom nk (4 * (nr + 1) - nk) key).length = 4 * (nr + 1) := by
  constructor
  · simp [expand, h, hk]
  · rw [scheduleFrom_length, hk]
    rcases roundsOf_cases h with ⟨rfl, rfl⟩ | ⟨rfl, rfl⟩ | ⟨rfl, rfl⟩ <;> rfl

/-! ### Preparing a command -/

theorem legalNk_rounds {nk : BitVec 4} (h : legalNk nk = true) : ∃ nr, roundsOf nk.toNat = some nr :=
  Option.isSome_iff_exists.1 h

/-- What preparing a command answers: the first error of its check, or Nr and the expanded key of KEY[0..NK−1]. -/
theorem prepare_cases (i : Instr) (s : State) :
    (∃ e, check (.command i) s = some e ∧ prepare i s = .error e) ∨
    (∃ nr w, check (.command i) s = none ∧ roundsOf s.nk.toNat = some nr ∧ expand s.nk.toNat (keyWords s) = .ok w ∧
      w.length = 4 * (nr + 1) ∧ prepare i s = .ok (nr, w)) := by
  cases hc : check (.command i) s with
  | some e => exact .inl ⟨e, rfl, by simp only [prepare, hc]⟩
  | none =>
    have hl : legalNk s.nk = true := by
      cases hl : legalNk s.nk with
      | true => rfl
      | false => simp [check, hl] at hc
    obtain ⟨nr, hnr⟩ := legalNk_rounds hl
    have h8 : s.nk.toNat ≤ 8 := by rcases roundsOf_cases hnr with h | h | h <;> omega
    obtain ⟨he, hlen⟩ := expand_legal hnr (keyWords_length s h8)
    exact .inr ⟨nr, _, rfl, hnr, he, hlen, by simp only [prepare, hc, hnr, he]⟩

theorem prepare_legal {i : Instr} {s : State} (h : check (.command i) s = none) :
    ∃ nr w, roundsOf s.nk.toNat = some nr ∧ expand s.nk.toNat (keyWords s) = .ok w ∧ w.length = 4 * (nr + 1) ∧
      prepare i s = .ok (nr, w) := by
  rcases prepare_cases i s with ⟨e, he, -⟩ | ⟨nr, w, -, h⟩
  · rw [h] at he; cases he
  · exact ⟨nr, w, h⟩

theorem check_keyexp (s : State) : check (.command .keyexp) s = if legalNk s.nk then none else some .invalidKeyLength := rfl

/-! ### Padding -/

theorem padLength_lt (n : Nat) : padLength n < 256 := by unfold padLength; omega

theorem pad_ok (p : Bytes) :
    pad p = .ok (p ++ List.replicate (padLength p.length) (BitVec.ofNat 8 (padLength p.length))) := by
  have := padLength_lt p.length
  simp only [pad, if_neg (by omega : ¬(256 ≤ padLength p.length))]

/-! ### The frames of commands -/

/-- What a command with no result bytes can do. -/
theorem runKeyOnly_cases (i : Instr) (s : State) :
    (∃ e, check (.command i) s = some e ∧ runKeyOnly i s = complete (errCode e) s) ∨
    (∃ nr w, check (.command i) s = none ∧ roundsOf s.nk.toNat = some nr ∧ expand s.nk.toNat (keyWords s) = .ok w ∧
      w.length = 4 * (nr + 1) ∧ runKeyOnly i s = complete 0 (storeRk w s)) := by
  rcases prepare_cases i s with ⟨e, h, hp⟩ | ⟨nr, w, h1, h2, h3, h4, hp⟩
  · exact .inl ⟨e, h, by simp only [runKeyOnly, hp]⟩
  · exact .inr ⟨nr, w, h1, h2, h3, h4, by simp only [runKeyOnly, hp]⟩

/-- What a data command can do: complete with the first error of its check, or with the error its result raises, or write its
result. -/
theorem runData_cases (i : Instr) (f : Nat → ExpKey → State → Except CmdError Bytes) (s : State) :
    (∃ e, check (.command i) s = some e ∧ runData i f s = complete (errCode e) s) ∨
    (∃ nr w, check (.command i) s = none ∧ roundsOf s.nk.toNat = some nr ∧ expand s.nk.toNat (keyWords s) = .ok w ∧
      w.length = 4 * (nr + 1) ∧
      ((∃ e, f nr w s = .error e ∧ runData i f s = complete (errCode e) s) ∨
       (∃ r, f nr w s = .ok r ∧ runData i f s = complete 0 (writeOut r (storeRk w s))))) := by
  rcases prepare_cases i s with ⟨e, h, hp⟩ | ⟨nr, w, h1, h2, h3, h4, hp⟩
  · exact .inl ⟨e, h, by simp only [runData, hp]⟩
  · refine .inr ⟨nr, w, h1, h2, h3, h4, ?_⟩
    cases hf : f nr w s with
    | error e => exact .inl ⟨e, rfl, by simp only [runData, hp, hf]⟩
    | ok r => exact .inr ⟨r, rfl, by simp only [runData, hp, hf]⟩

end Sys2Proof.Machine
end

