-- ==== Sys2Proof/Laws/Frames.lean ====
section
/-! SUPPORT. The frames of the updates a core step is made of, and what a run of each command does. -/

namespace Sys2Proof.Machine

theorem CoreFrame.trans {s t u : State} (h : CoreFrame s t) (g : CoreFrame t u) : CoreFrame s u where
  bufBytes := g.bufBytes.trans h.bufBytes
  ie := g.ie.trans h.ie
  werr := g.werr.trans h.werr
  nk := g.nk.trans h.nk
  len := g.len.trans h.len
  pendOp := g.pendOp.trans h.pendOp
  key := g.key.trans h.key
  iv := g.iv.trans h.iv
  prog := g.prog.trans h.prog
  vars := g.vars.trans h.vars
  trace := g.trace.trans h.trace
  turns := g.turns.trans h.turns
  inBytes := fun a ha => (g.inBytes a ha).trans (h.inBytes a ha)

theorem coreFrame_complete (c : BitVec 4) (s : State) : CoreFrame s (complete c s) := by
  constructor <;> intros <;> rfl

theorem coreFrame_storeRk (w : ExpKey) (s : State) : CoreFrame s (storeRk w s) := by
  constructor <;> intros <;> rfl

theorem coreFrame_writeOut (r : Bytes) (s : State) : CoreFrame s (writeOut r s) := by
  constructor <;> first | rfl | exact byteAt_writeOut_below r s

theorem completedWith_complete (c : BitVec 4) (s : State) : CompletedWith c (complete c s) := ⟨rfl, rfl, rfl⟩

theorem resultsKept_complete (c : BitVec 4) (s : State) : ResultsKept s (complete c s) := ⟨rfl, rfl, fun _ _ => rfl⟩

theorem rkHolds_storeRk (w : ExpKey) (s : State) : RkHolds w s (storeRk w s) where
  written i hi := by
    have := storeCells_get w 0 s.rk i.val i.isLt
    simpa [hi] using this
  above i hi := by
    have := storeCells_get w 0 s.rk i.val i.isLt
    simpa [show ¬(i.val < w.length) by omega] using this

theorem outHolds_writeOut (r : Bytes) (s : State) (h : r.length < 2 ^ 32) : OutHolds r s (writeOut r s) where
  outlen := by simpa using h
  bytes := outByte_writeOut r s
  above := outByte_writeOut_above r s

theorem bufBytes_legal (b : BufBytes) : b.bytes % 16 = 0 ∧ 32 ≤ b.bytes ∧ b.bytes ≤ 65536 := by
  have := b.ok
  simp only [bufBytesWf, Bool.and_eq_true, beq_iff_eq, decide_eq_true_eq] at this
  omega

/-- The state a data command leaves when it completes without an error. -/
theorem dataResult_runData (w : ExpKey) (r : Bytes) (s : State) (h : r.length < 2 ^ 32) :
    DataResult w r s (complete 0 (writeOut r (storeRk w s))) where
  completed := ⟨rfl, rfl, rfl⟩
  rk := ⟨(rkHolds_storeRk w s).written, (rkHolds_storeRk w s).above⟩
  out :=
    have o := outHolds_writeOut r (storeRk w s) h
    ⟨o.outlen, o.bytes, o.above⟩
  frame := ((coreFrame_storeRk w s).trans (coreFrame_writeOut r _)).trans (coreFrame_complete 0 _)

theorem message_length (s : State) : (message s).length = s.len.toNat := by simp [message]

end Sys2Proof.Machine
end

