-- ==== Sys2Proof/Laws/Bus.lean ====
section
/-! SUPPORT. The host bus: where the windows of the address map lie, and what a read and a write of a mapped address are. -/

namespace Sys2Proof.Machine

theorem inBase_eq : inBase = 0x10000 := rfl

theorem outBase_eq : outBase = 0x20000 := rfl

/-! ### The windows of the address map -/

theorem mapAddress_control {b a : Nat} (h : a < 0x20) : mapAddress b a = mapControl a := by
  simp only [mapAddress, if_pos h]

theorem mapAddress_file {b a : Nat} (h : 0x20 ≤ a) (h' : a < inBase) : mapAddress b a = mapFile a := by
  simp only [mapAddress, if_neg (by omega : ¬(a < 0x20)), if_pos h']

theorem mapAddress_buffer {b a : Nat} (h : inBase ≤ a) : mapAddress b a = mapBuffer b a := by
  have hi := inBase_eq
  simp only [mapAddress, if_neg (by omega : ¬(a < 0x20)), if_neg (by omega : ¬(a < inBase))]

theorem mapAddress_key (b : Nat) (j : Fin 8) : mapAddress b (0x20 + 4 * j.val) = some (.key j) := by
  have hi := inBase_eq
  have hj := j.isLt
  rw [mapAddress_file (by omega) (by omega), mapFile, dif_pos (by omega)]
  simp

theorem mapAddress_iv (b : Nat) (c : Fin 4) : mapAddress b (0x40 + 4 * c.val) = some (.iv c) := by
  have hi := inBase_eq
  have hc := c.isLt
  rw [mapAddress_file (by omega) (by omega), mapFile, dif_neg (by omega), dif_pos (by omega)]
  simp

theorem mapAddress_rk (b : Nat) (i : Fin 60) : mapAddress b (0x100 + 4 * i.val) = some (.rk i) := by
  have hb := inBase_eq
  have hi := i.isLt
  rw [mapAddress_file (by omega) (by omega), mapFile, dif_neg (by omega), dif_neg (by omega), dif_pos (by omega)]
  simp

theorem mapAddress_in (b : BufBytes) (k : Nat) (h : 4 * k < b.bytes) :
    mapAddress b.bytes (0x10000 + 4 * k) = some (.inWord k) := by
  have hi := inBase_eq
  rw [mapAddress_buffer (by omega), mapBuffer, if_pos (by omega), show (0x10000 + 4 * k - inBase) / 4 = k by omega]

theorem mapAddress_out (b : BufBytes) (k : Nat) (h : 4 * k < b.bytes) :
    mapAddress b.bytes (0x20000 + 4 * k) = some (.outWord k) := by
  have hb := bufBytes_legal b
  have hi := inBase_eq
  have ho := outBase_eq
  rw [mapAddress_buffer (by omega), mapBuffer, if_neg (by omega), if_pos (by omega),
    show (0x20000 + 4 * k - outBase) / 4 = k by omega]

/-- Where an address that reaches a target lies (20_memory.md R51). -/
def LiesAt (b : Nat) (t : Target) (a : Nat) : Prop :=
  match t with
  | .ctrl => a = 0x00
  | .status => a = 0x04
  | .cmd => a = 0x08
  | .keycfg => a = 0x0C
  | .len => a = 0x10
  | .outlen => a = 0x14
  | .caps => a = 0x18
  | .key j => 0x20 ≤ a ∧ a < 0x40 ∧ j.val = (a - 0x20) / 4
  | .iv c => 0x40 ≤ a ∧ a < 0x50 ∧ c.val = (a - 0x40) / 4
  | .rk i => 0x100 ≤ a ∧ a < 0x1F0 ∧ i.val = (a - 0x100) / 4
  | .inWord k => inBase ≤ a ∧ a < inBase + b ∧ k = (a - inBase) / 4
  | .outWord k => outBase ≤ a ∧ a < outBase + b ∧ k = (a - outBase) / 4

theorem liesAt_of_mapAddress {b a : Nat} {t : Target} (h : mapAddress b a = some t) : LiesAt b t a := by
  unfold mapAddress at h
  split at h
  · unfold mapControl at h
    split at h <;> cases h <;> rfl
  · split at h
    · unfold mapFile at h
      split at h
      · next hc => cases h; exact ⟨hc.1, hc.2, rfl⟩
      · split at h
        · next hc => cases h; exact ⟨hc.1, hc.2, rfl⟩
        · split at h
          · next hc => cases h; exact ⟨hc.1, hc.2, rfl⟩
          · cases h
    · unfold mapBuffer at h
      split at h
      · next hc => cases h; exact ⟨hc.1, hc.2, rfl⟩
      · split at h
        · next hc => cases h; exact ⟨hc.1, hc.2, rfl⟩
        · cases h

/-! ### Transactions at a mapped address -/

theorem busWrite_mapped {s : State} {addr : BitVec 18} {t : Target} (v : Word) (h4 : addr.toNat % 4 = 0)
    (h : mapAddress s.bufBytes.bytes addr.toNat = some t) :
    busWrite addr 15 v s =
      if s.busy && !t.writableWhileBusy then (.okay, { s with werr := true }) else (.okay, writeTarget t v s) := by
  simp [busWrite, target, h4, h]

theorem busRead_mapped {s : State} {addr : BitVec 18} {t : Target} (h4 : addr.toNat % 4 = 0)
    (h : mapAddress s.bufBytes.bytes addr.toNat = some t) :
    busRead addr 15 s =
      if s.busy && t.isResult then (.data (Config.freeWord s.draws), { s with draws := s.draws + 1 })
      else (.data (readTarget t s), s) := by
  simp [busRead, target, h4, h]

/-! ### Reads, writes and values of the host -/

/-- A read changes nothing but the draw counter. -/
theorem busRead_state (addr : BitVec 18) (lanes : BitVec 4) (s : State) :
    (busRead addr lanes s).2 = s ∨ (busRead addr lanes s).2 = { s with draws := s.draws + 1 } := by
  unfold busRead
  split
  · exact .inl rfl
  · split
    · exact .inr rfl
    · exact .inl rfl

/-- What a write can do: nothing, set WERR while busy, or the effect of its target. -/
theorem busWrite_cases (addr : BitVec 18) (lanes : BitVec 4) (v : Word) (s : State) :
    busWrite addr lanes v s = (.error, s) ∨
    (s.busy = true ∧ busWrite addr lanes v s = (.okay, { s with werr := true })) ∨
    (∃ t, target s addr lanes = some t ∧ (s.busy = true → t.writableWhileBusy = true) ∧
      busWrite addr lanes v s = (.okay, writeTarget t v s)) := by
  unfold busWrite
  split
  · exact .inl rfl
  · next t ht =>
    split
    · next h => exact .inr (.inl ⟨by simp_all, rfl⟩)
    · next h => exact .inr (.inr ⟨t, ht, by simp_all, rfl⟩)

/-- A target reached is the map of an aligned address. -/
theorem target_some {s : State} {addr : BitVec 18} {lanes : BitVec 4} {t : Target} (h : target s addr lanes = some t) :
    addr.toNat % 4 = 0 ∧ lanes = 15 ∧ mapAddress s.bufBytes.bytes addr.toNat = some t := by
  unfold target at h
  split at h
  · next hc => exact ⟨hc.1, hc.2, h⟩
  · cases h

/-- A value a host line sends costs at most one draw. -/
theorem hostValue_state (v : HostVal) (s : State) :
    (hostValue v s).2 = s ∨ (hostValue v s).2 = { s with draws := s.draws + 1 } := by
  cases v with
  | lit w => exact .inl rfl
  | name x =>
    simp only [hostValue]
    split
    · exact .inl rfl
    · exact .inr rfl

end Sys2Proof.Machine
end

