-- ==== Sys2Proof/Laws/Bytes.lean ====
section
/-! SUPPORT. The laws of bytes and words: packing and taking apart, and the lengths of the conversions. -/

namespace Sys2Proof.Machine

theorem byteOf_pack_0 (a b c d : Byte) : byteOf (pack a b c d) 0 = a := by
  ext i hi; simp only [byteOf, pack, BitVec.getElem_extractLsb', BitVec.getLsbD_append]
  simp [hi, show ¬(24 + i < 8) by omega, show ¬(24 + i - 8 < 8) by omega, show ¬(24 + i - 8 - 8 < 8) by omega,
    show 24 + i - 8 - 8 - 8 = i by omega]

theorem byteOf_pack_1 (a b c d : Byte) : byteOf (pack a b c d) 1 = b := by
  ext i hi; simp only [byteOf, pack, BitVec.getElem_extractLsb', BitVec.getLsbD_append]
  simp [hi, show ¬(16 + i < 8) by omega, show ¬(16 + i - 8 < 8) by omega, show 16 + i - 8 - 8 = i by omega]

theorem byteOf_pack_2 (a b c d : Byte) : byteOf (pack a b c d) 2 = c := by
  ext i hi; simp only [byteOf, pack, BitVec.getElem_extractLsb', BitVec.getLsbD_append]
  simp [hi, show ¬(8 + i < 8) by omega, show 8 + i - 8 = i by omega]

theorem byteOf_pack_3 (a b c d : Byte) : byteOf (pack a b c d) 3 = d := by
  ext i hi; simp only [byteOf, pack, BitVec.getElem_extractLsb', BitVec.getLsbD_append]
  simp [hi]

/-- A word is the pack of its four bytes. -/
theorem pack_byteOf (w : Word) : pack (byteOf w 0) (byteOf w 1) (byteOf w 2) (byteOf w 3) = w := by
  apply BitVec.eq_of_getLsbD_eq
  intro i hi
  simp only [byteOf, pack, BitVec.getLsbD_append, BitVec.getLsbD_extractLsb']
  by_cases h1 : i < 8
  · simp [h1]
  · by_cases h2 : i - 8 < 8
    · simp [h1, h2, show 8 + (i - 8) = i by omega]
    · by_cases h3 : i - 8 - 8 < 8
      · simp [h1, h2, h3, show 16 + (i - 8 - 8) = i by omega]
      · simp [h1, h2, h3, show 24 + (i - 8 - 8 - 8) = i by omega, show i - 8 - 8 - 8 < 8 by omega]

/-- Two words with the same four bytes are equal. -/
theorem word_ext {v w : Word} (h0 : byteOf v 0 = byteOf w 0) (h1 : byteOf v 1 = byteOf w 1) (h2 : byteOf v 2 = byteOf w 2)
    (h3 : byteOf v 3 = byteOf w 3) : v = w := by
  rw [← pack_byteOf v, ← pack_byteOf w, h0, h1, h2, h3]

theorem byteOf_xor (v w : Word) (i : Nat) : byteOf (v ^^^ w) i = byteOf v i ^^^ byteOf w i := by
  ext j hj; simp [byteOf]

theorem wordBytes_length (w : Word) : (wordBytes w).length = 4 := rfl

theorem stateToBlock_length (S : AesState) : (stateToBlock S).length = 16 := rfl

end Sys2Proof.Machine
end

