-- ==== Sys2Proof/Laws/Modes.lean ====
section
/-! SUPPORT. The lengths of padding, splitting, ECB, CBC and unpadding. -/

namespace Sys2Proof.Machine

theorem cipherBlock_length (w : ExpKey) (nr : Nat) (b : Bytes) : (cipherBlock w nr b).length = 16 := rfl

theorem invCipherBlock_length (w : ExpKey) (nr : Nat) (b : Bytes) : (invCipherBlock w nr b).length = 16 := rfl

theorem blocks_length (m : Bytes) : (blocks m).length = m.length / 16 := by simp [blocks]

theorem length_of_mem_blocks {m b : Bytes} (h : b ∈ blocks m) : b.length = 16 := by
  simp only [blocks, List.mem_map, List.mem_range] at h
  obtain ⟨i, hi, rfl⟩ := h
  simp only [List.length_take, List.length_drop]
  omega

theorem flatMap_block_length (f : Bytes → Bytes) (hf : ∀ b, (f b).length = 16) (l : List Bytes) :
    (l.flatMap f).length = 16 * l.length := by
  induction l with
  | nil => rfl
  | cons b bs ih => simp only [List.flatMap_cons, List.length_append, hf, ih, List.length_cons]; omega

theorem cbcEncBlocks_length (w : ExpKey) (nr : Nat) (prev : Bytes) (l : List Bytes) :
    (cbcEncBlocks w nr prev l).length = 16 * l.length := by
  induction l generalizing prev with
  | nil => rfl
  | cons b bs ih => simp only [cbcEncBlocks, List.length_append, cipherBlock_length, ih, List.length_cons]; omega

theorem xorBytes_length (a b : Bytes) : (xorBytes a b).length = min a.length b.length := by simp [xorBytes]

theorem cbcDecBlocks_length (w : ExpKey) (nr : Nat) (prev : Bytes) (hp : prev.length = 16) (l : List Bytes)
    (hl : ∀ b ∈ l, b.length = 16) : (cbcDecBlocks w nr prev l).length = 16 * l.length := by
  induction l generalizing prev with
  | nil => rfl
  | cons b bs ih =>
    simp only [cbcDecBlocks, List.length_append, xorBytes_length, invCipherBlock_length, hp, List.length_cons]
    rw [ih b (hl b (by simp)) fun x hx => hl x (by simp [hx])]
    omega

theorem ecbEnc_answers (p : Bytes) (w : ExpKey) (nr : Nat) :
    ∃ r, ecbEnc p w nr = .ok r ∧ r.length = 16 * (p.length / 16 + 1) := by
  refine ⟨_, by simp only [ecbEnc, pad_ok]; rfl, ?_⟩
  rw [flatMap_block_length _ (cipherBlock_length w nr), blocks_length, List.length_append, List.length_replicate, padLength]
  omega

theorem cbcEnc_answers (p : Bytes) (w : ExpKey) (nr : Nat) (iv : Bytes) :
    ∃ r, cbcEnc p w nr iv = .ok r ∧ r.length = 16 * (p.length / 16 + 1) := by
  refine ⟨_, by simp only [cbcEnc, pad_ok]; rfl, ?_⟩
  rw [cbcEncBlocks_length, blocks_length, List.length_append, List.length_replicate, padLength]
  omega

theorem ecbDecRaw_length (c : Bytes) (w : ExpKey) (nr : Nat) (h : c.length % 16 = 0) :
    (ecbDecRaw c w nr).length = c.length := by
  rw [ecbDecRaw, flatMap_block_length _ (invCipherBlock_length w nr), blocks_length]
  omega

theorem cbcDecRaw_length (c : Bytes) (w : ExpKey) (nr : Nat) (iv : Bytes) (hiv : iv.length = 16) (h : c.length % 16 = 0) :
    (cbcDecRaw c w nr iv).length = c.length := by
  rw [cbcDecRaw, cbcDecBlocks_length _ _ _ hiv _ fun b => length_of_mem_blocks, blocks_length]
  omega

/-! ### Results of an operand that holds `any` -/

theorem drawUnknown_length (f : Nat → Bool) (d k : Nat) (r : Bytes) : (drawUnknown f d k r).length = r.length := by
  induction r generalizing k with
  | nil => rfl
  | cons b bs ih => simp only [drawUnknown, List.length_cons, ih]

/-- Each byte of a drawn result: free where it is unknown, else the byte of the result. -/
theorem drawUnknown_getD (f : Nat → Bool) (d k : Nat) (r : Bytes) (j : Nat) (h : j < r.length) :
    (drawUnknown f d k r).getD j 0 = if f (k + j) then Config.freeByte d (outBase + (k + j)) else r.getD j 0 := by
  induction r generalizing k j with
  | nil => simp at h
  | cons b bs ih =>
    cases j with
    | zero => simp [drawUnknown]
    | succ j =>
      rw [drawUnknown, List.getD_cons_succ, List.getD_cons_succ, ih _ _ (by simpa using h), show k + 1 + j = k + (j + 1) by omega]

/-- Nothing is drawn where nothing is unknown. -/
theorem drawUnknown_known (f : Nat → Bool) (d k : Nat) (r : Bytes) (h : ∀ j, f j = false) : drawUnknown f d k r = r := by
  induction r generalizing k with
  | nil => rfl
  | cons b bs ih => simp [drawUnknown, h, ih]

theorem unknownBytes_length (s : State) : (unknownBytes s).length = s.len.toNat := by simp [unknownBytes]

/-- A message byte is unknown exactly where the memory lists nothing. -/
theorem mem_unknownBytes {s : State} : true ∈ unknownBytes s ↔ ∃ k, k < s.len.toNat ∧ Memory.lookup (inBase + k) s.mem = none := by
  simp [unknownBytes]

theorem unknownBytes_getD (s : State) (k : Nat) (h : k < s.len.toNat) :
    (unknownBytes s).getD k false = (Memory.lookup (inBase + k) s.mem).isNone := by
  simp [unknownBytes, h]

theorem drawnResult_length (f : List Bool → Nat → Bool) (s : State) (r : Bytes) : (drawnResult f s r).length = r.length :=
  drawUnknown_length _ _ _ _

theorem drawnResult_getD (f : List Bool → Nat → Bool) (s : State) (r : Bytes) (j : Nat) (h : j < r.length) :
    (drawnResult f s r).getD j 0 =
      if f (unknownBytes s) j then Config.freeByte s.draws (outBase + j) else r.getD j 0 := by
  rw [drawnResult, drawUnknown_getD _ _ _ _ _ h, Nat.zero_add]

theorem any_false_of_written {s : State} (h : MessageWritten s) {l : List Bool} (hl : ∀ b ∈ l, b ∈ unknownBytes s) :
    l.any id = false := by
  rw [List.any_eq_false]
  intro b hb ht
  simp only [id] at ht
  subst ht
  obtain ⟨k, hk, hn⟩ := mem_unknownBytes.1 (hl _ hb)
  exact h k hk hn

theorem ecbUnknown_written {s : State} (h : MessageWritten s) (k : Nat) : ecbUnknown (unknownBytes s) k = false :=
  any_false_of_written h fun _ hb => List.mem_of_mem_drop (List.mem_of_mem_take hb)

theorem cbcEncUnknown_written {s : State} (h : MessageWritten s) (k : Nat) : cbcEncUnknown (unknownBytes s) k = false :=
  any_false_of_written h fun _ hb => List.mem_of_mem_take hb

theorem cbcDecUnknown_written {s : State} (h : MessageWritten s) (k : Nat) : cbcDecUnknown (unknownBytes s) k = false := by
  rw [cbcDecUnknown, ecbUnknown_written h, Bool.false_or, Bool.and_eq_false_iff]
  refine .inr ?_
  by_cases hk : k - 16 < s.len.toNat
  · rw [unknownBytes_getD s _ hk]
    simpa [Option.isSome_iff_ne_none] using h _ hk
  · rw [List.getD_eq_default _ _ (by rw [unknownBytes_length]; omega)]

/-- With every message byte written, the result bytes are those its operands give. -/
theorem drawnResult_known (f : List Bool → Nat → Bool) (s : State) (r : Bytes) (h : ∀ k, f (unknownBytes s) k = false) :
    drawnResult f s r = r :=
  drawUnknown_known _ _ _ _ h

theorem unpad_length_le (m : Bytes) : (unpad m).length ≤ m.length := by
  unfold unpad
  split
  · simp
  · simp only [List.length_take]; omega

theorem ivBytes_length (s : State) : (ivBytes s).length = 16 := by
  have h : ∀ l : List Word, (l.flatMap wordBytes).length = 4 * l.length := by
    intro l
    induction l with
    | nil => rfl
    | cons b bs ih => simp only [List.flatMap_cons, List.length_append, wordBytes, ih, List.length_nil, List.length_cons]; omega
  rw [ivBytes, h]
  simp

end Sys2Proof.Machine
end

