-- ==== Sys2Proof/Laws/Exec.lean ====
section
/-! SUPPORT. What a command can do, said once: the inversion of `exec` that every claim over all commands is split by. -/

namespace Sys2Proof.Machine

theorem legalNk_iff (s : State) : legalNk s.nk = true ↔ NkLegal s := by
  unfold NkLegal
  generalize s.nk = n
  revert n
  decide

theorem nkLegal_of_check {i : Instr} {s : State} (h : check (.command i) s = none) : NkLegal s := by
  rw [← legalNk_iff]
  cases hl : legalNk s.nk with
  | true => rfl
  | false => simp [check, hl] at h

theorem checkLengths_of_check {i : Instr} {s : State} (h : check (.command i) s = none) : checkLengths i s = none := by
  rw [check, if_pos ((legalNk_iff s).2 (nkLegal_of_check h))] at h
  exact h

/-- What a passed check says of LEN, per command (60_exceptions.md R247). -/
theorem checkLengths_none {i : Instr} {s : State} (h : checkLengths i s = none) :
    match i with
    | .keyexp => True
    | .encEcb | .encCbc => s.len.toNat + (16 - s.len.toNat % 16) ≤ s.bufBytes.bytes
    | .decEcb | .decCbc => s.len.toNat ≤ s.bufBytes.bytes ∧ s.len.toNat % 16 = 0 ∧ s.len.toNat ≠ 0
    | .encBlk | .decBlk => s.len.toNat = 16 := by
  have hp : padLength s.len.toNat = 16 - s.len.toNat % 16 := rfl
  cases i <;> simp only [checkLengths, checkData, checkEncrypt, checkDecrypt, checkBlock] at h ⊢ <;> split_ifs at h <;> omega

/-- Everything a command can do: complete with the error its check finds, or expand the key and write RK (KEYEXP), or write RK and a
result that fits in OUT (a data command). -/
theorem exec_cases (i : Instr) (s : State) :
    (∃ e, check (.command i) s = some e ∧ exec i s = .next (complete (errCode e) s)) ∨
    (∃ nr w, check (.command i) s = none ∧ KeySchedule s nr w ∧ i = .keyexp ∧
      exec i s = .next (complete 0 (storeRk w s))) ∨
    (∃ nr w r, check (.command i) s = none ∧ KeySchedule s nr w ∧ i ≠ .keyexp ∧ r.length ≤ s.bufBytes.bytes ∧
      exec i s = .next (complete 0 (writeOut r (storeRk w s)))) := by
  cases hc : check (.command i) s with
  | some e =>
    have hp : prepare i s = .error e := by simp only [prepare, hc]
    refine .inl ⟨e, rfl, ?_⟩
    cases i <;> simp only [exec, execKeyexp, execEncEcb, execDecEcb, execEncCbc, execDecCbc, execEncBlk, execDecBlk,
      runKeyOnly, runData, hp]
  | none =>
    obtain ⟨nr, w, h1, h2, h3, hp⟩ := prepare_legal hc
    have hk : KeySchedule s nr w := ⟨h1, h2, h3⟩
    have hb := bufBytes_legal s.bufBytes
    have hl := checkLengths_none (checkLengths_of_check hc)
    have hm := message_length s
    right
    cases i with
    | keyexp => exact .inl ⟨nr, w, rfl, hk, rfl, by simp only [exec, execKeyexp, runKeyOnly, hp]⟩
    | encEcb =>
      obtain ⟨r, hr, hlen⟩ := ecbEnc_answers (message s) w nr
      exact .inr ⟨nr, w, drawnResult ecbUnknown s r, rfl, hk, by simp, by simp only at hl; rw [drawnResult_length]; omega,
        by simp only [exec, execEncEcb, runData, hp, hr, Except.map]⟩
    | encCbc =>
      obtain ⟨r, hr, hlen⟩ := cbcEnc_answers (message s) w nr (ivBytes s)
      exact .inr ⟨nr, w, drawnResult cbcEncUnknown s r, rfl, hk, by simp, by simp only at hl; rw [drawnResult_length]; omega,
        by simp only [exec, execEncCbc, runData, hp, hr, Except.map]⟩
    | decEcb =>
      have hlen := ecbDecRaw_length (message s) w nr (by simp only at hl; omega)
      have hu := unpad_length_le (drawnResult ecbUnknown s (ecbDecRaw (message s) w nr))
      rw [drawnResult_length] at hu
      exact .inr ⟨nr, w, unpad (drawnResult ecbUnknown s (ecbDecRaw (message s) w nr)), rfl, hk, by simp, by simp only at hl; omega, by simp only [exec, execDecEcb, runData, hp]⟩
    | decCbc =>
      have hlen := cbcDecRaw_length (message s) w nr _ (ivBytes_length s) (by simp only at hl; omega)
      have hu := unpad_length_le (drawnResult cbcDecUnknown s (cbcDecRaw (message s) w nr (ivBytes s)))
      rw [drawnResult_length] at hu
      exact .inr ⟨nr, w, unpad (drawnResult cbcDecUnknown s (cbcDecRaw (message s) w nr (ivBytes s))), rfl, hk, by simp, by simp only at hl; omega, by simp only [exec, execDecCbc, runData, hp]⟩
    | encBlk =>
      exact .inr ⟨nr, w, drawnResult ecbUnknown s (cipherBlock w nr ((message s).take 16)), rfl, hk, by simp, by rw [drawnResult_length, cipherBlock_length]; omega,
        by simp only [exec, execEncBlk, runData, hp]⟩
    | decBlk =>
      exact .inr ⟨nr, w, drawnResult ecbUnknown s (invCipherBlock w nr ((message s).take 16)), rfl, hk, by simp, by rw [drawnResult_length, invCipherBlock_length]; omega,
        by simp only [exec, execDecBlk, runData, hp]⟩

end Sys2Proof.Machine
end

