-- ==== Sys2Proof/Laws/PerInstr.lean ====
section
/-! SUPPORT. Statements for all commands, one lemma per constructor. -/

namespace Sys2Proof.Laws.EncodingShape

/-- The encoding of a command is a well-formed command word whose OP field is its OP and whose reserved bits are zero (30_encoding.md
R80 to R82). -/
def Statement (i : Instr) : Prop :=
  i.wf = true ∧ commandWordWf (encode i) = true ∧ opField (encode i) = opOf i ∧ rsvField (encode i) = 0

theorem keyexp : Statement .keyexp := by unfold Statement; decide
theorem encEcb : Statement .encEcb := by unfold Statement; decide
theorem decEcb : Statement .decEcb := by unfold Statement; decide
theorem encCbc : Statement .encCbc := by unfold Statement; decide
theorem decCbc : Statement .decCbc := by unfold Statement; decide
theorem encBlk : Statement .encBlk := by unfold Statement; decide
theorem decBlk : Statement .decBlk := by unfold Statement; decide

end Sys2Proof.Laws.EncodingShape
end

