-- ==== Sys2Proof/Laws/Step.lean ====
section
/-! SUPPORT. What the core's step and a step of the machine can do, said once. -/

namespace Sys2Proof.Machine

/-- The core's step with a command in flight: its meaning, or the completion of a reserved word. -/
theorem coreStep_busy {s : State} (h : s.busy = true) :
    (∃ i, decode s.pendOp = .command i ∧ coreStep s = exec i s) ∨
    (∃ r, decode s.pendOp = .invalid r ∧ coreStep s = .next (complete 4 s)) := by
  cases hd : decode s.pendOp with
  | command i => exact .inl ⟨i, rfl, by simp [coreStep, h, hd]⟩
  | invalid r => exact .inr ⟨r, rfl, by simp [coreStep, h, hd, execReserved, check, errCode]⟩

theorem coreStep_idle {s : State} (h : s.busy = false) : coreStep s = .next s := by
  simp [coreStep, h]

/-- A step, by the agent whose turn it is. -/
theorem step_cases (s : State) :
    (nextTurn s = .host ∧ step s = .next (hostStep { s with turns := s.turns.tail })) ∨
    (nextTurn s = .core ∧ step s = coreStep { s with turns := s.turns.tail }) ∨
    (nextTurn s = .reset ∧ step s = .next (applyReset { s with turns := s.turns.tail })) := by
  cases h : nextTurn s with
  | host => exact .inl ⟨rfl, by simp [step, h, agentStep]⟩
  | core => exact .inr (.inl ⟨rfl, by simp [step, h, agentStep]⟩)
  | reset => exact .inr (.inr ⟨rfl, by simp [step, h, agentStep]⟩)

end Sys2Proof.Machine
end

