-- ==== Sys2Proof/Tests/Slice0.lean ====
section
/-! SUPPORT. The model's own tests, each with the place of spec/ its expected value comes from, and for every statement that has
hypotheses a witness that meets them. -/

namespace Sys2Proof.Tests

open Sys2Proof.Machine

/-! ### Helpers -/

/-- The state after a command, or the state before it if the command stopped. -/
def after (i : Instr) (s : State) : State :=
  match exec i s with
  | .next t => t
  | .fault _ | .refused _ => s

/-- The state a step answers, if it answers one. -/
def answer (o : Host.Outcome State Fault Refusal) : Option State :=
  match o with
  | .next t => some t
  | .fault _ | .refused _ => none

theorem next_of_answer {o : Host.Outcome State Fault Refusal} {t : State} (h : answer o = some t) : o = .next t := by
  cases o with
  | next u => simpa [answer] using h
  | fault r => simp [answer] at h
  | refused r => simp [answer] at h

/-- The reset state with NK, KEY, IV and a message in IN (LEN its length). -/
def operands (nk : BitVec 4) (key iv : List Word) (msg : Bytes) : State :=
  { State.reset with
    nk := nk
    key := Vector.ofFn fun j => key.getD j.val 0
    iv := Vector.ofFn fun c => iv.getD c.val 0
    len := BitVec.ofNat 32 msg.length
    mem := Memory.storeBytes inBase msg [] }

/-- K128 (95_test_vectors.md). -/
def k128 : List Word := [0x2b7e1516, 0x28aed2a6, 0xabf71588, 0x09cf4f3c]

/-- IV0F (95_test_vectors.md). -/
def iv0f : List Word := [0x00010203, 0x04050607, 0x08090a0b, 0x0c0d0e0f]

/-- "hello" (95_test_vectors.md PAD3, E4). -/
def hello : Bytes := [0x68, 0x65, 0x6c, 0x6c, 0x6f]

/-- A one-block message: the bytes of four words. -/
def block (w0 w1 w2 w3 : Word) : Bytes := wordBytes w0 ++ wordBytes w1 ++ wordBytes w2 ++ wordBytes w3

/-- K128 with "hello" as the message. -/
def sHello : State := operands 4 k128 iv0f hello

/-- K128 with one block as the message: the ciphertext of "hello" under ENC_ECB (95_test_vectors.md E4). -/
def sBlock : State := operands 4 k128 iv0f (block 0x54116e8b 0xb5470e43 0x2b4a6deb 0xc243a7ec)

/-- K128 with LEN = n and nothing written to IN. -/
def sLen (n : Word) : State := { operands 4 k128 iv0f [] with len := n }

/-- A command word in flight, the core's turn by default. -/
def inFlight (w : Word) (s : State) : State := issue w s

/-! ### WellFormed -/

/-- 30_encoding.md R82, R83: reserved words are ill formed. -/
theorem test_command_words_ill_formed :
    commandWordWf 0 = false ∧ commandWordWf 8 = false ∧ commandWordWf 0x12 = false ∧ commandWordWf 0x10000002 = false ∧
      commandWordWf 7 = true := by decide

/-- 00_scope.md R10: sizes that are too small, too large or no multiple of 16 are ill formed. -/
theorem test_buf_bytes_ill_formed :
    bufBytesWf 16 = false ∧ bufBytesWf 65552 = false ∧ bufBytesWf 40 = false ∧ bufBytesWf 32 = true ∧ bufBytesWf 65536 = true := by
  decide

/-- 20_memory.md R57: a misaligned and a sub-word access are ill formed. -/
theorem test_access_ill_formed : accessWf 0x2 15 = false ∧ accessWf 0x4 7 = false ∧ accessWf 0x4 15 = true := by decide

/-- No command has an operand (30_encoding.md R80), so none is ill formed. -/
theorem test_instr_wf : ∀ i : Instr, i.wf = true := by intro i; cases i <;> rfl

/-! ### Decode and fetch -/

/-- 30_encoding.md R81: the seven words as opcode_table.json writes them. -/
theorem test_decodeTableWord :
    decodeTableWord 32 0b00000000000000000000000000000001 = some .keyexp ∧
    decodeTableWord 32 0b00000000000000000000000000000010 = some .encEcb ∧
    decodeTableWord 32 0b00000000000000000000000000000011 = some .decEcb ∧
    decodeTableWord 32 0b00000000000000000000000000000100 = some .encCbc ∧
    decodeTableWord 32 0b00000000000000000000000000000101 = some .decCbc ∧
    decodeTableWord 32 0b00000000000000000000000000000110 = some .encBlk ∧
    decodeTableWord 32 0b00000000000000000000000000000111 = some .decBlk ∧
    decodeTableWord 32 0x00000012 = none ∧ decodeTableWord 32 0x8 = none := by decide

/-- 95_test_vectors.md CMD-1: with NK = 0 the word placed runs as the first command after reset and ends in InvalidKeyLength. -/
theorem test_step_runs_fetch_word :
    step (State.reset.withFetchWord 32 1) = .next { State.reset with pendOp := 1, done := true, err := 1 } :=
  next_of_answer (by decide)

/-! ### The commands -/

/-- 95_test_vectors.md K1 and P1: RK[4], RK[43], and RK[44] still `any`. -/
theorem test_keyexp_k1 :
    (after .keyexp (operands 4 k128 [] [])).rk[4] = .known 0xa0fafe17 ∧
    (after .keyexp (operands 4 k128 [] [])).rk[43] = .known 0xb6630ca6 ∧
    (after .keyexp (operands 4 k128 [] [])).rk[44] = .drawn 44 := by decide +kernel

/-- 95_test_vectors.md K2: the last word of the 192-bit expansion. -/
theorem test_keyexp_k2 :
    (after .keyexp (operands 6 [0x8e73b0f7, 0xda0e6452, 0xc810f32b, 0x809079e5, 0x62f8ead2, 0x522c6b7b] [] [])).rk[51] =
      .known 0x01002202 := by decide +kernel

/-- 95_test_vectors.md E4, "hello". -/
theorem test_encEcb_hello :
    outMessage (after .encEcb sHello) = block 0x54116e8b 0xb5470e43 0x2b4a6deb 0xc243a7ec := by decide +kernel

/-- 95_test_vectors.md CMD-11: LEN = BUF_BYTES overflows OUT. -/
theorem test_encEcb_overflow : (after .encEcb (sLen 4096)).err = 5 ∧ (after .encEcb (sLen 4096)).outlen = 0 := by decide

/-- 95_test_vectors.md P5: the ciphertext of "hello" decrypts and unpads to it. -/
theorem test_decEcb_hello : outMessage (after .decEcb sBlock) = hello := by decide +kernel

/-- 95_test_vectors.md U8: an unpad that drops more than a block. -/
theorem test_decEcb_u8 :
    outMessage (after .decEcb (operands 4 k128 [] (block 0x8df4e9aa 0xc5c7573a 0x27d8d055 0xd6e4d64b ++
      block 0xec638824 0x8464ab0c 0xc06229eb 0xec77b57c))) =
      [0x00, 0x11, 0x22, 0x33, 0x44, 0x55, 0x66, 0x77, 0x88, 0x99, 0xaa, 0xbb] := by decide +kernel

/-- 95_test_vectors.md V2 (SP 800-38A F.2.1), with the encrypted padding block. -/
theorem test_encCbc_v2 :
    outMessage (after .encCbc (operands 4 k128 iv0f (block 0x6bc1bee2 0x2e409f96 0xe93d7e11 0x7393172a))) =
      block 0x7649abac 0x8119b246 0xcee98e9b 0x12e9197d ++ block 0x8964e0b1 0x49c10b7b 0x682e6e39 0xaaeb731c := by
  decide +kernel

/-- 95_test_vectors.md CMD-12. -/
theorem test_encCbc_overflow : (after .encCbc (sLen 4096)).err = 5 := by decide

/-- 95_test_vectors.md X1: with the wrong IV only block 0 changes. -/
theorem test_decCbc_x1 :
    outMessage (after .decCbc (operands 4 k128 [] (block 0x7649abac 0x8119b246 0xcee98e9b 0x12e9197d ++
      block 0x8964e0b1 0x49c10b7b 0x682e6e39 0xaaeb731c))) =
      block 0x6bc0bce1 0x2a459991 0xe134741a 0x7f9e1925 := by decide +kernel

/-- 95_test_vectors.md CMD-7. -/
theorem test_decCbc_bad_length : (after .decCbc (sLen 17)).err = 2 := by decide

/-- 95_test_vectors.md C3 (256-bit key). -/
theorem test_encBlk_c3 :
    outMessage (after .encBlk (operands 8 [0x00010203, 0x04050607, 0x08090a0b, 0x0c0d0e0f, 0x10111213, 0x14151617, 0x18191a1b,
      0x1c1d1e1f] [] (block 0x00112233 0x44556677 0x8899aabb 0xccddeeff))) =
      block 0x8ea2b7ca 0x516745bf 0xeafc4990 0x4b496089 := by decide +kernel

/-- 95_test_vectors.md CMD-8 and CMD-15. -/
theorem test_encBlk_bad_length :
    (after .encBlk (sLen 15)).err = 2 ∧ (after .encBlk (sLen 0x20000)).err = 5 := by decide

/-- 95_test_vectors.md V1-inv. -/
theorem test_decBlk_v1 :
    outMessage (after .decBlk (operands 4 k128 [] (block 0x3925841d 0x02dc09fb 0xdc118597 0x196a0b32))) =
      block 0x3243f6a8 0x885a308d 0x313198a2 0xe0370734 := by decide +kernel

/-- 95_test_vectors.md CMD-9. -/
theorem test_decBlk_bad_length : (after .decBlk (sLen 32)).err = 2 := by decide

/-- 95_test_vectors.md CMD-20 and CMD-21: a reserved word ends in InvalidCommand, before the key check. -/
theorem test_reserved_words :
    step (inFlight 0xffffffff State.reset) = .next { State.reset with pendOp := 0xffffffff, done := true, err := 4 } ∧
    step (inFlight 0x12 State.reset) = .next { State.reset with pendOp := 0x12, done := true, err := 4 } :=
  ⟨next_of_answer (by decide), next_of_answer (by decide)⟩

/-! ### The bus, the host and reset -/

/-- 95_test_vectors.md BUS-6, BUS-12 to BUS-16: CAPS, and the addresses that answer ERROR. -/
theorem test_bus_reads :
    (busRead 0x18 15 State.reset).1 = .data 0x100 ∧ (busRead 0x1c 15 State.reset).1 = .error ∧
    (busRead 0x50 15 State.reset).1 = .error ∧ (busRead 0x1f0 15 State.reset).1 = .error ∧
    (busRead 0x11000 15 State.reset).1 = .error ∧ (busRead 0x6 15 State.reset).1 = .error := by decide

/-- 95_test_vectors.md BUS-19 and BUS-21: an illegal NK is stored; a write of LEN while busy is dropped and sets WERR. -/
theorem test_bus_writes :
    (busRead 0xc 15 (busWrite 0xc 15 0xa7 State.reset).2).1 = .data 7 ∧
    statusWord (busWrite 0x10 15 0x10 (inFlight 1 State.reset)).2 = 5 ∧
    (busWrite 0x10 15 0x10 (inFlight 1 State.reset)).2.len = 0 := by decide

/-- 95_test_vectors.md BUS-25 to BUS-27: write one to clear DONE, then WERR; zeros and reserved bits change nothing. -/
theorem test_acknowledge :
    statusWord (acknowledge 2 { State.reset with done := true, werr := true, err := 1 }) = 0x14 ∧
    statusWord (acknowledge 4 { State.reset with werr := true, err := 1 }) = 0x10 ∧
    statusWord (acknowledge 0xfffffff9 { State.reset with done := true, werr := true, err := 1 }) = 0x16 := by decide

/-- 95_test_vectors.md P6: reset with a command in flight. -/
theorem test_reset_while_busy :
    statusWord (applyReset (inFlight 1 sHello)) = 0 ∧ (applyReset (inFlight 1 sHello)).nk = 0 ∧
      (applyReset (inFlight 1 sHello)).key[0] = 0 ∧ (applyReset (inFlight 1 sHello)).rk[0] = .drawn 62 := by decide

/-- 20_memory.md R53: byte 0 of a bus word is the most significant, at the lowest IN index. -/
theorem test_in_byte_order :
    (inByte (busWrite 0x10000 15 0x68656c6c State.reset).2 0 = 0x68) ∧
      (busRead 0x10000 15 (busWrite 0x10000 15 0x68656c6c State.reset).2).1 = .data 0x68656c6c := by decide

/-- 30_encoding.md R92: a name bound by a read is written back by a later line. -/
theorem test_host_names :
    (hostStep { State.reset with prog := [.write 0x10 15 (.name "x")], vars := [("x", 7)] }).len = 7 := by decide

/-- The memory of the reset state is in canonical form. -/
theorem test_reset_memory_wf : Memory.wf State.reset.mem := by simp [Memory.wf, State.reset]

/-! ### Witnesses: states and operands that meet the hypotheses of each statement -/

/-- HostWriteWhileIdle, HostReads: the last words of IN and OUT, and what stands at the edges of each window. -/
theorem witness_host_idle :
    State.reset.busy = false ∧ 4 * 1023 < State.reset.bufBytes.bytes ∧
    mapAddress 4096 0x18 = some .caps ∧ mapAddress 4096 0x1C = none ∧ mapAddress 4096 0x20 = some (.key 0) ∧
    mapAddress 4096 0x3C = some (.key 7) ∧ mapAddress 4096 0x40 = some (.iv 0) ∧ mapAddress 4096 0x4C = some (.iv 3) ∧
    mapAddress 4096 0x50 = none ∧ mapAddress 4096 0xFC = none ∧ mapAddress 4096 0x100 = some (.rk 0) ∧
    mapAddress 4096 0x1EC = some (.rk 59) ∧ mapAddress 4096 0x1F0 = none ∧ mapAddress 4096 0xFFFC = none ∧
    mapAddress 4096 0x10000 = some (.inWord 0) ∧ mapAddress 4096 0x10FFC = some (.inWord 1023) ∧
    mapAddress 4096 0x11000 = none ∧ mapAddress 4096 0x20000 = some (.outWord 0) ∧
    mapAddress 4096 0x20FFC = some (.outWord 1023) ∧ mapAddress 4096 0x21000 = none ∧ mapAddress 4096 0x3FFFC = none := by decide

/-- The clauses of HostWriteWhileIdle over k at the largest instance: IN ends where OUT begins. -/
theorem witness_largest_buffers :
    mapAddress 65536 0x1FFFC = some (.inWord 16383) ∧ mapAddress 65536 0x20000 = some (.outWord 0) ∧
      mapAddress 65536 0x2FFFC = some (.outWord 16383) ∧ mapAddress 65536 0x30000 = none := by decide

/-- HostWriteWhileBusy, HostReads while busy, CommandIssue, OperandsFrozenWhileBusy: a command in flight, a mapped address that is
neither CTRL nor STATUS, and an unmapped one. -/
theorem witness_host_busy :
    (inFlight 1 State.reset).busy = true ∧ (0x10FFC#18).toNat ≠ 0 ∧ (0x10FFC#18).toNat ≠ 4 ∧
      (mapAddress (inFlight 1 State.reset).bufBytes.bytes (0x10FFC#18).toNat).isSome = true ∧ (0x10FFC#18).toNat % 4 = 0 ∧
      mapAddress (inFlight 1 State.reset).bufBytes.bytes (0x1C#18).toNat = none ∧ (0x1C#18).toNat ≠ 0 ∧ (0x1C#18).toNat ≠ 4 := by
  decide

/-- BadTransactionGetsError: each way a transaction is bad, at the edges of the unmapped ranges of an instance with 4096 bytes. -/
theorem witness_bad_transactions :
    (0x00006#18).toNat % 4 ≠ 0 ∧ (7#4) ≠ 15 ∧ (0x1C ≤ (0x1C#18).toNat ∧ (0x1C#18).toNat < 0x20) ∧
      (0x50 ≤ (0x50#18).toNat ∧ (0xFC#18).toNat < 0x100) ∧ (0x1F0 ≤ (0x1F0#18).toNat ∧ (0xFFFC#18).toNat < 0x10000) ∧
      (0x10000 + State.reset.bufBytes.bytes ≤ (0x11000#18).toNat ∧ (0x1FFFC#18).toNat < 0x20000) ∧
      (0x20000 + State.reset.bufBytes.bytes ≤ (0x21000#18).toNat ∧ (0x2FFFC#18).toNat < 0x30000) ∧
      0x30000 ≤ (0x30000#18).toNat := by decide

/-- AddressesDoNotAlias: an address and the location it reaches. -/
theorem witness_alias :
    0x1EC % 4 = 0 ∧ mapAddress State.reset.bufBytes.bytes 0x1EC = some (.rk 59) := by decide

/-- CommandIssue, StepKeepsInvariant: a state in flight that meets the invariant. -/
theorem witness_invariant_busy : (inFlight 1 State.reset).Inv ∧ (inFlight 1 State.reset).busy = true := by
  refine ⟨⟨?_, ?_, ?_, ?_, ?_, ?_, ?_⟩, rfl⟩
  · simp [inFlight, issue, State.reset, Memory.wf]
  · simp [inFlight, issue, State.reset]
  · simp [inFlight, issue, State.reset]
  · simp [inFlight, issue, State.reset]
  · simp [inFlight, issue]
  · simp [inFlight, issue]
  · simp [inFlight, issue, State.reset, drawnCells]
    omega

/-- StepKeepsInvariant, DoneAndErrChangeOnlyAtTheirEvents: its step answers a next state, where DONE rises and ERR changes. -/
theorem witness_invariant_step :
    step (inFlight 1 State.reset) = .next { State.reset with pendOp := 1, done := true, err := 1 } ∧
      nextTurn (inFlight 1 State.reset) = .core ∧ (inFlight 1 State.reset).done = false ∧ (inFlight 1 State.reset).err ≠ 1 :=
  ⟨next_of_answer (by decide), by decide, by decide, by decide⟩

/-- FailedCommandWritesStatusOnly, InvalidKeyLengthOnEveryCommand: NK = 0 on every command. -/
theorem witness_invalid_key :
    check (.command .keyexp) State.reset = some .invalidKeyLength ∧ nextTurn (inFlight 7 State.reset) = .core ∧
      (inFlight 7 State.reset).busy = true ∧ decode (inFlight 7 State.reset).pendOp = .command .decBlk ∧
      ¬NkLegal (inFlight 7 State.reset) := by
  refine ⟨by decide, by decide, by decide, by decide, ?_⟩
  unfold NkLegal
  decide

/-- InvalidBlockLength: LEN = 0 and LEN = 17 for the decrypt commands, 15 and 17 for the single-block ones, and an encryption. -/
theorem witness_block_length :
    NkLegal (sLen 0) ∧ (sLen 0).len.toNat ≤ (sLen 0).bufBytes.bytes ∧ (sLen 0).len.toNat = 0 ∧
      (sLen 17).len.toNat ≤ (sLen 17).bufBytes.bytes ∧ (sLen 17).len.toNat % 16 ≠ 0 ∧ (sLen 17).len.toNat ≠ 16 ∧
      (sLen 15).len.toNat ≠ 16 ∧ exec .encEcb State.reset = .next { State.reset with done := true, err := 1 } :=
  ⟨.inl rfl, by decide, by decide, by decide, by decide, by decide, by decide, next_of_answer (by decide)⟩

/-- BufferOverflow: LEN one above BUF_BYTES, and LEN = BUF_BYTES, where only the padded output does not fit. -/
theorem witness_overflow :
    NkLegal (sLen 4097) ∧ (sLen 4097).len.toNat > (sLen 4097).bufBytes.bytes ∧ NkLegal (sLen 4096) ∧
      (sLen 4096).len.toNat + (16 - (sLen 4096).len.toNat % 16) > (sLen 4096).bufBytes.bytes ∧
      ¬(sLen 4096).len.toNat > (sLen 4096).bufBytes.bytes :=
  ⟨.inl rfl, by decide, .inl rfl, by decide, by decide⟩

/-- ReservedWordIsInvalidCommand: the words 0 and 8 in flight. -/
theorem witness_reserved :
    nextTurn (inFlight 0 State.reset) = .core ∧ (inFlight 0 State.reset).busy = true ∧
      (inFlight 0 State.reset).pendOp.toNat = 0 ∧ 8 ≤ (inFlight 8 State.reset).pendOp.toNat := by decide

/-- KeyexpCompletes, EncEcbCompletes, EncCbcCompletes: "hello" under K128, and the longest message that fits, BUF_BYTES - 1. -/
theorem witness_encrypt :
    NkLegal sHello ∧ sHello.len.toNat < sHello.bufBytes.bytes ∧ NkLegal (sLen 4095) ∧
      (sLen 4095).len.toNat < (sLen 4095).bufBytes.bytes :=
  ⟨.inl rfl, by decide, .inl rfl, by decide⟩

/-- DecEcbCompletes, DecCbcCompletes, EncBlkCompletes, DecBlkCompletes: one block, and the longest message, BUF_BYTES. -/
theorem witness_decrypt :
    NkLegal sBlock ∧ sBlock.len.toNat ≤ sBlock.bufBytes.bytes ∧ sBlock.len.toNat % 16 = 0 ∧ sBlock.len.toNat ≠ 0 ∧ sBlock.len = 16 ∧
      NkLegal (sLen 4096) ∧ (sLen 4096).len.toNat ≤ (sLen 4096).bufBytes.bytes ∧ (sLen 4096).len.toNat % 16 = 0 ∧
      (sLen 4096).len.toNat ≠ 0 :=
  ⟨.inl rfl, by decide, by decide, by decide, by decide, .inl rfl, by decide, by decide, by decide⟩

/-- OnlySevenWordsAreCommands: a word with reserved bits, the reserved OP values at their edges, and the edges 1 and 7. -/
theorem witness_words :
    16 ≤ (16#32).toNat ∧ 16 ≤ (0xffffffff#32).toNat ∧ (0#32).toNat = 0 ∧ (8 ≤ (8#32).toNat ∧ (15#32).toNat < 16) ∧
      decode 1 = .command .keyexp ∧ decode 7 = .command .decBlk := by decide

/-- ConversionsAreInverse, ShiftRowsMovesColumns, MixColumnIsPolynomialProduct: a block of 16 bytes, and the last row and column. -/
theorem witness_datapath : (block 1 2 3 4).length = 16 ∧ (3 : Nat) < 4 := by decide

/-- ExpansionRecurrence: a legal key of each length, an index at each edge of the schedule, an index of the extra SubWord of Nk = 8, and an illegal
length. -/
theorem witness_expansion :
    roundsOf 4 = some 10 ∧ k128.length = 4 ∧ (List.replicate 6 (0 : Word)).length = 6 ∧
      (List.replicate 8 (0 : Word)).length = 8 ∧ (3 < 4) ∧ (4 ≤ 4 ∧ 43 < 4 * (10 + 1)) ∧ roundsOf 8 = some 14 ∧ (8 > 6 ∧ 12 % 8 = 4) ∧
      (5 ≠ 4 ∧ 5 ≠ 6 ∧ 5 ≠ 8) ∧ k128.length ≠ 6 := by decide

/-- UnpadTrustsLastByte: each clause, with a last byte equal to the tail, zero, and above the length. -/
theorem witness_unpad :
    ([0xAA, 0x02] : Bytes).getLast? = some 0x02 ∧ (0x02#8).toNat = ([0xAA, 0x02] : Bytes).length ∧
      ([0xAA, 0x00] : Bytes).getLast? = some 0 ∧ ([0xAA, 0x03] : Bytes).getLast? = some 0x03 ∧
      ([0xAA, 0x03] : Bytes).length ≤ (0x03#8).toNat := by decide

/-- EcbIsBlockwise, CbcEncryptionChains, CbcDecryptionChains, RoundTripLaws: an IV of 16 bytes, the empty message, whose one block is
the padding block, the second block of a two-block message, and an encryption that answers. -/
theorem witness_modes :
    (ivBytes sHello).length = 16 ∧ 0 < ([] : Bytes).length / 16 + 1 ∧ (block 1 2 3 4 ++ block 5 6 7 8).length % 16 = 0 ∧
      1 < (block 1 2 3 4 ++ block 5 6 7 8).length / 16 ∧
      ecbEnc [] [] 0 = .ok ((blocks (List.replicate 16 0x10)).flatMap (cipherBlock [] 0)) ∧
      cbcEnc [] [] 0 (ivBytes sHello) = .ok (cbcEncBlocks [] 0 (ivBytes sHello) (blocks (List.replicate 16 0x10))) :=
  ⟨by decide, by decide, by decide, by decide, rfl, rfl⟩

/-- WrittenMessageGivesDefinedResult: written messages whose commands complete without an error, and their key schedules. -/
theorem witness_written :
    MessageWritten sHello ∧ MessageWritten sBlock ∧ (∃ nr w, KeySchedule sHello nr w) ∧ (∃ nr w, KeySchedule sBlock nr w) ∧
      (after .encEcb sHello).err = 0 ∧ (after .encCbc sHello).err = 0 ∧ (after .decEcb sBlock).err = 0 ∧
      (after .decCbc sBlock).err = 0 ∧ (after .encBlk sBlock).err = 0 ∧ (after .decBlk sBlock).err = 0 := by
  have key {s : State} (h : check (.command .keyexp) s = none) : ∃ nr w, KeySchedule s nr w :=
    have ⟨nr, w, h1, h2, h3, _⟩ := prepare_legal h
    ⟨nr, w, h1, h2, h3⟩
  refine ⟨?_, ?_, key (by decide), key (by decide), ?_⟩
  · unfold MessageWritten; decide
  · unfold MessageWritten; decide
  · decide +kernel

/-- UnwrittenInputGivesFreeResult: a message whose last byte nothing has written (LEN is one past "hello"), and 32 unwritten ciphertext
bytes, of which byte 15 stands 16 below the last; their commands complete without an error. -/
theorem witness_unwritten :
    5 < (6#32).toNat ∧ Memory.lookup (inBase + 5) sHello.mem = none ∧ (after .encEcb { sHello with len := 6 }).err = 0 ∧
      Memory.lookup (inBase + 15) (sLen 32).mem = none ∧ (after .encCbc (sLen 32)).err = 0 ∧
      (after .decEcb (sLen 32)).err = 0 ∧ (after .decCbc (sLen 32)).err = 0 ∧ (sLen 32).len.toNat - 1 = 15 + 16 := by
  have done (i : Instr) (s : State) (h : check (.command i) s = none) : (after i s).err = 0 := by
    rcases exec_cases i s with ⟨e, he, -⟩ | ⟨_, _, -, -, -, hx⟩ | ⟨_, _, _, -, -, -, -, hx⟩
    · rw [h] at he; cases he
    · simp [after, hx]
    · simp [after, hx]
  exact ⟨by decide, by decide, done _ _ (by decide), by decide, done _ _ (by decide), done _ _ (by decide),
    done _ _ (by decide), by decide⟩

/-- EcbCommandRoundTrip: ENC_ECB of "hello", and a state whose message is that output. -/
theorem witness_ecb_round_trip :
    MessageWritten sHello ∧ MessageWritten sBlock ∧ NkLegal sHello ∧ sHello.len.toNat < sHello.bufBytes.bytes ∧ exec .encEcb sHello = .next (after .encEcb sHello) ∧
      sBlock.bufBytes = sHello.bufBytes ∧ sBlock.nk = sHello.nk ∧ (∀ j : Fin 8, j.val < sHello.nk.toNat → sBlock.key[j] = sHello.key[j]) ∧
      message sBlock = outMessage (after .encEcb sHello) :=
  ⟨witness_written.1, witness_written.2.1, .inl rfl, by decide, rfl, rfl, rfl, by decide, by decide +kernel⟩

/-- The ciphertext of "hello" under ENC_CBC (95_test_vectors.md E4), as a message. -/
def sCbcBlock : State := operands 4 k128 iv0f (block 0xd8666ea8 0xaad65cc0 0x8354b4bc 0x43d4ff56)

/-- CbcCommandRoundTrip: ENC_CBC of "hello", and a state whose message is that output, with the same IV. -/
theorem witness_cbc_round_trip :
    MessageWritten sHello ∧ MessageWritten sCbcBlock ∧ NkLegal sHello ∧ sHello.len.toNat < sHello.bufBytes.bytes ∧ exec .encCbc sHello = .next (after .encCbc sHello) ∧
      sCbcBlock.bufBytes = sHello.bufBytes ∧ sCbcBlock.nk = sHello.nk ∧
      (∀ j : Fin 8, j.val < sHello.nk.toNat → sCbcBlock.key[j] = sHello.key[j]) ∧ sCbcBlock.iv = sHello.iv ∧
      message sCbcBlock = outMessage (after .encCbc sHello) :=
  ⟨witness_written.1, by unfold MessageWritten; decide, .inl rfl, by decide, rfl, rfl, rfl, by decide, rfl, by decide +kernel⟩

/-- V1's plaintext as a message, and its ciphertext (95_test_vectors.md V1). -/
def sV1 : State := operands 4 k128 [] (block 0x3243f6a8 0x885a308d 0x313198a2 0xe0370734)

/-- V1's ciphertext as a message. -/
def sV1Out : State := operands 4 k128 [] (block 0x3925841d 0x02dc09fb 0xdc118597 0x196a0b32)

/-- BlockCommandRoundTrip: V1 and its inverse. -/
theorem witness_block_round_trip :
    MessageWritten sV1 ∧ MessageWritten sV1Out ∧ NkLegal sV1 ∧ sV1.len = 16 ∧ exec .encBlk sV1 = .next (after .encBlk sV1) ∧ sV1Out.nk = sV1.nk ∧
      (∀ j : Fin 8, j.val < sV1.nk.toNat → sV1Out.key[j] = sV1.key[j]) ∧ message sV1Out = outMessage (after .encBlk sV1) :=
  ⟨by unfold MessageWritten; decide, by unfold MessageWritten; decide, .inl rfl, by decide, rfl, rfl, by decide, by decide +kernel⟩

/-- PaddingOverflowNeverReported, InvalidKeyLengthOnEveryCommand: a command that answers. -/
theorem witness_exec_answers : exec .keyexp State.reset = .next { State.reset with done := true, err := 1 } :=
  next_of_answer (by decide)

/-- StepRunsDecodedCommand: ENC_ECB in flight on the core's turn, and a word to place. -/
theorem witness_decoded :
    nextTurn (inFlight 2 sHello) = .core ∧ (inFlight 2 sHello).busy = true ∧ decode (inFlight 2 sHello).pendOp = .command .encEcb ∧
      decode 7 = .command .decBlk := by decide

/-- AcceptedCommandCompletes: a command in flight with two host turns before the core's. -/
theorem witness_completes :
    (inFlight 1 { State.reset with turns := [.host, .host] }).busy = true ∧
      Turn.reset ∉ (inFlight 1 { State.reset with turns := [.host, .host] }).turns := by decide

/-- CommandsDependOnOperandsOnly: two states with the operands of ENC_ECB in common that differ elsewhere (IV and OUTLEN), both of
whose commands answer with code 0. -/
theorem witness_same_operands :
    SameOperands .encEcb sHello { sHello with iv := Vector.replicate 4 0xFF, outlen := 9 } ∧
      exec .encEcb sHello = .next (after .encEcb sHello) ∧
      exec .encEcb { sHello with iv := Vector.replicate 4 0xFF, outlen := 9 } =
        .next (after .encEcb { sHello with iv := Vector.replicate 4 0xFF, outlen := 9 }) ∧
      (after .encEcb sHello).err = 0 :=
  ⟨⟨rfl, rfl, fun _ _ => rfl, fun _ => rfl, fun _ _ _ => rfl, by simp⟩, rfl, rfl, by decide +kernel⟩

/-- AgentsWriteOnlyTheirState, OperandsFrozenWhileBusy: a host step while idle, and one while a command is in flight. -/
theorem witness_host_step :
    nextTurn State.reset = .host ∧ step State.reset = .next State.reset ∧
      nextTurn { inFlight 1 State.reset with turns := [.host] } = .host ∧
      step { inFlight 1 State.reset with turns := [.host] } = .next (inFlight 1 State.reset) :=
  ⟨by decide, next_of_answer (by decide), by decide, next_of_answer (by decide)⟩

/-- ResetStep, DoneAndErrChangeOnlyAtTheirEvents: reset's turn, with DONE and ERR set. -/
theorem witness_reset_turn :
    nextTurn { State.reset with turns := [.reset], done := true, err := 4 } = .reset ∧
      step { State.reset with turns := [.reset], done := true, err := 4 } =
        .next (applyReset { State.reset with done := true, err := 4 }) ∧
      (applyReset { State.reset with done := true, err := 4 }).done = false :=
  ⟨by decide, next_of_answer (by decide), by decide⟩

/-- DoneAndErrChangeOnlyAtTheirEvents: an issue clears DONE and ERR. -/
theorem witness_issue_clears :
    (hostStep { State.reset with done := true, err := 4, prog := macroRun .keyexp }).done = false ∧
      (hostStep { State.reset with done := true, err := 4, prog := macroRun .keyexp }).err = 0 ∧
      (hostStep { State.reset with done := true, err := 4, prog := macroRun .keyexp }).busy = true := by decide

/-- DoneAndErrChangeOnlyAtTheirEvents: an acknowledgement clears DONE and leaves ERR; its line is a full-lane write of STATUS with bit 1
set. -/
theorem witness_acknowledge_clears :
    step { State.reset with done := true, err := 4, prog := macroAck } =
        .next { State.reset with err := 4, trace := [.okay] } ∧
      macroAck = .write 0x00004 15 (.lit 6) :: [] ∧
      (hostValue (.lit 6) { State.reset with done := true, err := 4, prog := macroAck }).1.getLsbD 1 = true :=
  ⟨next_of_answer (by decide), by decide, by decide⟩

/-- RunMacroRunsCommand: an idle state whose program is RUN KEYEXP. -/
theorem witness_run_macro :
    { State.reset with prog := macroRun .keyexp ++ [] }.busy = false ∧
      { State.reset with prog := macroRun .keyexp ++ [] }.turns = [] := by decide

end Sys2Proof.Tests
end

section
/-! SUPPORT and PROOF. The key expansion: its recurrence, length and error (00_scope.md R8, 41_key_schedule.md R145). -/

namespace Sys2Proof.Machine

/-! ### The key expansion -/

/-- The recurrence appends: the words an expansion already holds stay (41_key_schedule.md R145). -/
theorem scheduleFrom_getD_lt (nk n : Nat) (w : ExpKey) {i : Nat} (hi : i < w.length) :
    (scheduleFrom nk n w).getD i 0 = w.getD i 0 := by
  induction n generalizing w with
  | zero => rfl
  | succ n ih =>
    rw [scheduleFrom, ih _ (by rw [List.length_append]; omega), List.getD_append _ _ _ _ hi]

/-- Every word the recurrence appends is the one of 41_key_schedule.md R145. -/
theorem scheduleFrom_getD_recurrence {nk : Nat} (n : Nat) (w : ExpKey) (h0 : 0 < nk) (hw : nk ≤ w.length) {i : Nat}
    (hi : w.length ≤ i) (hn : i < w.length + n) :
    (scheduleFrom nk n w).getD i 0 =
      (scheduleFrom nk n w).getD (i - nk) 0 ^^^ scheduleTemp nk i ((scheduleFrom nk n w).getD (i - 1) 0) := by
  induction n generalizing w with
  | zero => omega
  | succ n ih =>
    have hl : (w ++ [scheduleWord nk w]).length = w.length + 1 := by simp
    rcases Nat.eq_or_lt_of_le hi with rfl | hlt
    · have hnew : (scheduleFrom nk (n + 1) w).getD w.length 0 = scheduleWord nk w := by
        rw [scheduleFrom, scheduleFrom_getD_lt nk n _ (by omega), List.getD_append_right _ _ _ _ (Nat.le_refl _), Nat.sub_self]
        rfl
      rw [hnew, scheduleFrom_getD_lt nk _ w (by omega), scheduleFrom_getD_lt nk _ w (by omega), scheduleWord]
    · exact ih _ (by omega) (by omega) (by omega)

theorem roundsOf_of_illegal {nk : Nat} (h4 : nk ≠ 4) (h6 : nk ≠ 6) (h8 : nk ≠ 8) : roundsOf nk = none := by
  cases h : roundsOf nk with
  | none => rfl
  | some nr => rcases roundsOf_cases h with ⟨h, -⟩ | ⟨h, -⟩ | ⟨h, -⟩ <;> contradiction

theorem expand_ok_length {nk nr : Nat} {key : List Word} (h : roundsOf nk = some nr) (hk : key.length = nk) :
    ∃ w, expand nk key = .ok w ∧ w.length = 4 * (nr + 1) :=
  ⟨_, expand_legal h hk⟩

theorem expand_illegal {nk : Nat} {key : List Word} (h : (nk ≠ 4 ∧ nk ≠ 6 ∧ nk ≠ 8) ∨ key.length ≠ nk) :
    expand nk key = .error .invalidKeyLength := by
  unfold expand
  rcases h with ⟨h4, h6, h8⟩ | hk
  · rw [roundsOf_of_illegal h4 h6 h8]
  · cases roundsOf nk with
    | none => rfl
    | some nr => exact if_pos hk

/-- Settles O38: the recurrence of 41_key_schedule.md R145 holds along `scheduleFrom` from the key on. -/
theorem expansionRecurrence : Obligations.ExpansionRecurrence := by
  refine ⟨⟨rfl, rfl, rfl, fun _ => roundsOf_of_illegal⟩, fun _ => expand_ok_length (nr := 10) rfl,
    fun _ => expand_ok_length (nr := 12) rfl, fun _ => expand_ok_length (nr := 14) rfl, ?_, fun _ _ => expand_illegal⟩
  intro nk nr key hnr hk
  obtain ⟨hexp, hlen⟩ := expand_legal hnr hk
  refine ⟨_, hexp, hlen, fun i hi => scheduleFrom_getD_lt _ _ _ (by omega), fun i hi hn => ?_⟩
  have h0 : 0 < nk := by rcases roundsOf_cases hnr with h | h | h <;> omega
  exact scheduleFrom_getD_recurrence _ key h0 (by omega) (by omega) (by omega)

end Sys2Proof.Machine
end

section
/-! SUPPORT and PROOF. What a command reads: the results of two states that agree on its operands (30_encoding.md R90,
70_reset_and_hazards.md R273). -/

namespace Sys2Proof.Machine

/-! ### Byte sequences that agree where they are known -/

/-- Two byte sequences of one length that agree at every index `unknown` does not mark. -/
def AgreeWhereKnown (unknown : Nat → Bool) (a b : Bytes) : Prop :=
  a.length = b.length ∧ ∀ k, unknown k = false → a.getD k 0 = b.getD k 0

/-- A stretch of bytes with no unknown byte is the same in both. -/
theorem AgreeWhereKnown.slice_eq {f : Nat → Bool} {a b : Bytes} (h : AgreeWhereKnown f a b) (m n : Nat)
    (hf : ∀ j, m ≤ j → j < m + n → f j = false) : (a.drop m).take n = (b.drop m).take n := by
  obtain ⟨hlen, hbyte⟩ := h
  refine List.ext_getElem (by simp [hlen]) fun j hj hj' => ?_
  simp only [List.length_take, List.length_drop] at hj
  have := hbyte (m + j) (hf _ (by omega) (by omega))
  rw [List.getD_eq_getElem _ _ (by omega), List.getD_eq_getElem _ _ (by omega)] at this
  simpa using this

theorem AgreeWhereKnown.append {f : Nat → Bool} {a b : Bytes} (h : AgreeWhereKnown f a b) (c : Bytes) :
    AgreeWhereKnown f (a ++ c) (b ++ c) := by
  obtain ⟨hlen, hbyte⟩ := h
  refine ⟨by simp [hlen], fun k hk => ?_⟩
  rcases Nat.lt_or_ge k a.length with hlt | hge
  · rw [List.getD_append _ _ _ _ hlt, List.getD_append _ _ _ _ (by omega), hbyte k hk]
  · rw [List.getD_append_right _ _ _ _ hge, List.getD_append_right _ _ _ _ (by omega), hlen]

/-- Drawing the unknown bytes, each run by its own draw, touches no known byte. -/
theorem AgreeWhereKnown.drawUnknown {f : Nat → Bool} {a b : Bytes} (h : AgreeWhereKnown f a b) (d e : Nat) :
    AgreeWhereKnown f (drawUnknown f d 0 a) (drawUnknown f e 0 b) := by
  obtain ⟨hlen, hbyte⟩ := h
  refine ⟨by rw [drawUnknown_length, drawUnknown_length, hlen], fun k hk => ?_⟩
  rcases Nat.lt_or_ge k a.length with hlt | hge
  · rw [drawUnknown_getD _ _ _ _ _ hlt, drawUnknown_getD _ _ _ _ _ (by omega), Nat.zero_add, hk]
    exact hbyte k hk
  · rw [List.getD_eq_default _ _ (by rwa [drawUnknown_length]), List.getD_eq_default _ _ (by rwa [drawUnknown_length, ← hlen])]

/-! ### Unpadding -/

/-- The length the unpadder leaves is the last byte's (43_modes_padding.md R185). -/
theorem unpad_length (m : Bytes) : (unpad m).length = m.length - min (m.getD (m.length - 1) 0).toNat m.length := by
  unfold unpad
  rw [List.getLast?_eq_getElem?, List.getD_eq_getElem?_getD]
  cases h : m[m.length - 1]? with
  | none => simp [List.eq_nil_of_length_eq_zero (show m.length = 0 by rw [List.getElem?_eq_none_iff] at h; omega)]
  | some n => simp

theorem unpad_getD (m : Bytes) {k : Nat} (h : k < (unpad m).length) : (unpad m).getD k 0 = m.getD k 0 := by
  unfold unpad at h ⊢
  split at h
  · simp at h
  · simp only [List.length_take] at h
    simp only [List.getD_eq_getElem?_getD]
    rw [List.getElem?_take_of_lt (by omega)]

theorem AgreeWhereKnown.unpad_length_eq {f : Nat → Bool} {a b : Bytes} (h : AgreeWhereKnown f a b)
    (hlast : f (a.length - 1) = false) : (unpad a).length = (unpad b).length := by
  obtain ⟨hlen, hbyte⟩ := h
  rw [unpad_length, unpad_length, hbyte _ hlast, hlen]

/-! ### Blocks -/

theorem flatMap_block_getD {f : Bytes → Bytes} (hf : ∀ b, (f b).length = 16) (l : List Bytes) {k : Nat}
    (hk : k < 16 * l.length) : (l.flatMap f).getD k 0 = (f (l.getD (k / 16) [])).getD (k % 16) 0 := by
  induction l generalizing k with
  | nil => simp at hk
  | cons b bs ih =>
    have hb : (f b).length = 16 := hf b
    rw [List.flatMap_cons]
    rcases Nat.lt_or_ge k 16 with hlt | hge
    · rw [List.getD_append _ _ _ _ (by omega), Nat.div_eq_of_lt hlt, Nat.mod_eq_of_lt hlt, List.getD_cons_zero]
    · obtain ⟨d, rfl⟩ : ∃ d, k = d + 16 := ⟨k - 16, by omega⟩
      rw [List.length_cons] at hk
      rw [List.getD_append_right _ _ _ _ (by omega), hb, Nat.add_sub_cancel, Nat.add_div_right _ (by omega), Nat.add_mod_right,
        List.getD_cons_succ, ih (by omega)]

/-- Byte k of a blockwise function of a sequence is a byte of its image of the block that holds k. -/
theorem blocks_flatMap_getD {f : Bytes → Bytes} (hf : ∀ b, (f b).length = 16) (m : Bytes) {k : Nat}
    (hk : k / 16 < m.length / 16) : ((blocks m).flatMap f).getD k 0 = (f (blockOf m (k / 16))).getD (k % 16) 0 := by
  have hl := blocks_length m
  rw [flatMap_block_getD hf _ (by omega)]
  simp [blocks, blockOf, hk]

/-- The blocks of a sequence, put together, are its whole blocks. -/
theorem blocks_flatten (m : Bytes) : (blocks m).flatten = m.take (16 * (m.length / 16)) := by
  unfold blocks
  generalize m.length / 16 = n
  induction n with
  | zero => rfl
  | succ n ih => rw [List.range_succ, List.map_append, List.flatten_append, ih, Nat.mul_succ, List.take_add]; simp

/-- A blockwise function of sequences that agree where known: a byte is known where its whole block is. -/
theorem AgreeWhereKnown.blockwise {f g : Nat → Bool} {a b : Bytes} (h : AgreeWhereKnown f a b) {F : Bytes → Bytes}
    (hF : ∀ b, (F b).length = 16)
    (hg : ∀ k, g k = false → ∀ j, 16 * (k / 16) ≤ j → j < 16 * (k / 16) + 16 → f j = false) :
    AgreeWhereKnown g ((blocks a).flatMap F) ((blocks b).flatMap F) := by
  have la := flatMap_block_length F hF (blocks a)
  have lb := flatMap_block_length F hF (blocks b)
  rw [blocks_length] at la lb
  have hlen := h.1
  refine ⟨by rw [la, lb, hlen], fun k hk => ?_⟩
  rcases Nat.lt_or_ge (k / 16) (a.length / 16) with hlt | hge
  · have hblock : blockOf a (k / 16) = blockOf b (k / 16) := h.slice_eq _ _ (hg k hk)
    rw [blocks_flatMap_getD hF a hlt, blocks_flatMap_getD hF b (by omega), hblock]
  · rw [List.getD_eq_default _ _ (by omega), List.getD_eq_default _ _ (by omega)]

/-- A function of the first block alone: its bytes are known where all of the block is. -/
theorem AgreeWhereKnown.firstBlock {f g : Nat → Bool} {a b : Bytes} (h : AgreeWhereKnown f a b) {F : Bytes → Bytes}
    (hF : ∀ b, (F b).length = 16) (hg : ∀ k, k < 16 → g k = false → ∀ j, j < 16 → f j = false) :
    AgreeWhereKnown g (F (a.take 16)) (F (b.take 16)) := by
  refine ⟨by rw [hF, hF], fun k hk => ?_⟩
  rcases Nat.lt_or_ge k 16 with hlt | hge
  · have htake : a.take 16 = b.take 16 := by
      simpa using h.slice_eq 0 16 fun j _ hj => hg k hlt hk j (by omega)
    rw [htake]
  · rw [List.getD_eq_default _ _ (by rwa [hF]), List.getD_eq_default _ _ (by rwa [hF])]

/-! ### CBC -/

theorem blocks_take (m : Bytes) (n : Nat) : (blocks m).take n = blocks (m.take (16 * n)) := by
  have hlen : ((blocks m).take n).length = (blocks (m.take (16 * n))).length := by
    simp only [List.length_take, blocks_length]
    omega
  refine List.ext_getElem hlen fun i hi hi' => ?_
  simp only [List.length_take, blocks_length] at hi
  simp only [blocks, List.getElem_take, List.getElem_map, List.getElem_range, List.drop_take, List.take_take]
  rw [Nat.min_eq_left (by omega)]

/-- CBC encryption runs in block order: the first n blocks of the result come from the first n blocks. -/
theorem cbcEncBlocks_take (w : ExpKey) (nr : Nat) (prev : Bytes) (l : List Bytes) (n : Nat) :
    (cbcEncBlocks w nr prev l).take (16 * n) = cbcEncBlocks w nr prev (l.take n) := by
  induction l generalizing prev n with
  | nil => simp [cbcEncBlocks]
  | cons b bs ih =>
    cases n with
    | zero => simp [cbcEncBlocks]
    | succ n =>
      rw [cbcEncBlocks, List.take_append, cipherBlock_length, show 16 * (n + 1) - 16 = 16 * n by omega, ih,
        List.take_of_length_le (by rw [cipherBlock_length]; omega), List.take_succ_cons, cbcEncBlocks]

theorem AgreeWhereKnown.cbcEnc {f g : Nat → Bool} {a b : Bytes} (h : AgreeWhereKnown f a b) (w : ExpKey) (nr : Nat) (iv : Bytes)
    (hg : ∀ k, g k = false → ∀ j, j < 16 * (k / 16 + 1) → f j = false) :
    AgreeWhereKnown g (cbcEncBlocks w nr iv (blocks a)) (cbcEncBlocks w nr iv (blocks b)) := by
  refine ⟨by rw [cbcEncBlocks_length, cbcEncBlocks_length, blocks_length, blocks_length, h.1], fun k hk => ?_⟩
  have htake : a.take (16 * (k / 16 + 1)) = b.take (16 * (k / 16 + 1)) := by
    simpa using h.slice_eq 0 (16 * (k / 16 + 1)) fun j _ hj => hg k hk j (by omega)
  have hinit (m : Bytes) : (cbcEncBlocks w nr iv (blocks m)).getD k 0 =
      (cbcEncBlocks w nr iv (blocks (m.take (16 * (k / 16 + 1))))).getD k 0 := by
    rw [← blocks_take, ← cbcEncBlocks_take, List.getD_eq_getElem?_getD, List.getD_eq_getElem?_getD,
      List.getElem?_take_of_lt (by omega)]
  rw [hinit a, hinit b, htake]

/-- CBC decryption as one XOR: the raw ECB decryption with the IV and the ciphertext (43_modes_padding.md R187, R188). -/
theorem cbcDecBlocks_eq_xorBytes (w : ExpKey) (nr : Nat) (prev : Bytes) (hp : prev.length = 16) (l : List Bytes)
    (hl : ∀ b ∈ l, b.length = 16) :
    cbcDecBlocks w nr prev l = xorBytes (l.flatMap (invCipherBlock w nr)) (prev ++ l.flatten) := by
  induction l generalizing prev with
  | nil => rfl
  | cons b bs ih =>
    rw [cbcDecBlocks, ih b (hl b (by simp)) fun x hx => hl x (by simp [hx]), List.flatMap_cons, List.flatten_cons]
    exact (List.zipWith_append (by rw [invCipherBlock_length, hp])).symm

theorem xorBytes_getD (a b : Bytes) {k : Nat} (ha : k < a.length) (hb : k < b.length) :
    (xorBytes a b).getD k 0 = a.getD k 0 ^^^ b.getD k 0 := by
  simp [xorBytes, ha, hb]

theorem AgreeWhereKnown.xorBytes {f g : Nat → Bool} {a b c d : Bytes} (h : AgreeWhereKnown f a b) (h' : AgreeWhereKnown g c d) :
    AgreeWhereKnown (fun k => f k || g k) (xorBytes a c) (xorBytes b d) := by
  obtain ⟨hlen, hbyte⟩ := h
  obtain ⟨hlen', hbyte'⟩ := h'
  have hx : (Machine.xorBytes a c).length = (Machine.xorBytes b d).length := by rw [xorBytes_length, xorBytes_length, hlen, hlen']
  refine ⟨hx, fun k hk => ?_⟩
  rw [Bool.or_eq_false_iff] at hk
  rcases Nat.lt_or_ge k (Machine.xorBytes a c).length with hlt | hge
  · rw [xorBytes_length] at hlt
    rw [xorBytes_getD _ _ (by omega) (by omega), xorBytes_getD _ _ (by omega) (by omega), hbyte k hk.1, hbyte' k hk.2]
  · rw [List.getD_eq_default _ _ hge, List.getD_eq_default _ _ (by omega)]

/-- The operand of the CBC XOR: byte k is known where it is an IV byte, or ciphertext byte k − 16 is known. -/
theorem AgreeWhereKnown.cbcOperand {f : Nat → Bool} {a b : Bytes} (h : AgreeWhereKnown f a b) {iv : Bytes} (hiv : iv.length = 16) :
    AgreeWhereKnown (fun k => decide (16 ≤ k) && f (k - 16))
      (iv ++ (blocks a).flatten) (iv ++ (blocks b).flatten) := by
  obtain ⟨hlen, hbyte⟩ := h
  rw [blocks_flatten, blocks_flatten]
  refine ⟨by simp [hlen], fun k hk => ?_⟩
  rcases Nat.lt_or_ge k 16 with hlt | hge
  · rw [List.getD_append _ _ _ _ (by omega), List.getD_append _ _ _ _ (by omega)]
  · have hknown : f (k - 16) = false := by simpa [hge] using hk
    have hk' := hbyte _ hknown
    rw [List.getD_eq_getElem?_getD, List.getD_eq_getElem?_getD] at hk'
    rw [List.getD_append_right _ _ _ _ (by omega), List.getD_append_right _ _ _ _ (by omega), hiv, ← hlen,
      List.getD_eq_getElem?_getD, List.getD_eq_getElem?_getD, List.getElem?_take, List.getElem?_take]
    split
    · exact hk'
    · rfl

/-! ### What each command computes -/

/-- The padded message (43_modes_padding.md R180). -/
def paddedMessage (p : Bytes) : Bytes := p ++ List.replicate (padLength p.length) (BitVec.ofNat 8 (padLength p.length))

/-- Padding depends on the length of the message alone, so it is known. -/
theorem AgreeWhereKnown.pad {f : Nat → Bool} {p q : Bytes} (h : AgreeWhereKnown f p q) :
    AgreeWhereKnown f (paddedMessage p) (paddedMessage q) := by
  rw [paddedMessage, paddedMessage, ← h.1]
  exact h.append _

/-- The bytes a data command computes from a message and an IV, before unpadding. -/
def rawResult (i : Instr) (nr : Nat) (w : ExpKey) (p iv : Bytes) : Bytes :=
  match i with
  | .keyexp => []
  | .encEcb => (blocks (paddedMessage p)).flatMap (cipherBlock w nr)
  | .decEcb => ecbDecRaw p w nr
  | .encCbc => cbcEncBlocks w nr iv (blocks (paddedMessage p))
  | .decCbc => cbcDecRaw p w nr iv
  | .encBlk => cipherBlock w nr (p.take 16)
  | .decBlk => invCipherBlock w nr (p.take 16)

/-- The result of a data command before unpadding, its unknown bytes drawn. -/
def drawnRaw (i : Instr) (nr : Nat) (w : ExpKey) (s : State) : Bytes :=
  drawUnknown (resultUnknown i s) s.draws 0 (rawResult i nr w (message s) (ivBytes s))

/-- The bytes a data command writes to OUT. -/
def dataBytes (i : Instr) (nr : Nat) (w : ExpKey) (s : State) : Bytes :=
  match i with
  | .decEcb | .decCbc => unpad (drawnRaw i nr w s)
  | _ => drawnRaw i nr w s

/-- A data command whose check passes writes the expansion to RK and `dataBytes` to OUT. -/
theorem exec_dataBytes {i : Instr} {s : State} {nr : Nat} {w : ExpKey} (hi : i ≠ .keyexp) (hc : check (.command i) s = none)
    (hk : KeySchedule s nr w) : exec i s = .next (complete 0 (writeOut (dataBytes i nr w s) (storeRk w s))) := by
  obtain ⟨hnr, hw, -⟩ := hk
  have hp : prepare i s = .ok (nr, w) := by simp only [prepare, hc, hnr, hw]
  cases i with
  | keyexp => exact absurd rfl hi
  | encEcb => simp only [exec, execEncEcb, runData, hp, ecbEnc, pad_ok, Except.map]; rfl
  | encCbc => simp only [exec, execEncCbc, runData, hp, cbcEnc, pad_ok, Except.map]; rfl
  | decEcb => simp only [exec, execDecEcb, runData, hp]; rfl
  | decCbc => simp only [exec, execDecCbc, runData, hp]; rfl
  | encBlk => simp only [exec, execEncBlk, runData, hp]; rfl
  | decBlk => simp only [exec, execDecBlk, runData, hp]; rfl

/-- A command whose check fails completes with that error. -/
theorem exec_checkError {i : Instr} {s : State} {e : CmdError} (hc : check (.command i) s = some e) :
    exec i s = .next (complete (errCode e) s) := by
  rcases exec_cases i s with ⟨e', hc', hx⟩ | ⟨_, _, hc', -⟩ | ⟨_, _, _, hc', -⟩
  · cases hc.symm.trans hc'
    exact hx
  · cases hc.symm.trans hc'
  · cases hc.symm.trans hc'

theorem exec_keyexp {s : State} {nr : Nat} {w : ExpKey} (hc : check (.command .keyexp) s = none) (hk : KeySchedule s nr w) :
    exec .keyexp s = .next (complete 0 (storeRk w s)) := by
  obtain ⟨hnr, hw, -⟩ := hk
  simp only [exec, execKeyexp, runKeyOnly, prepare, hc, hnr, hw]

/-! ### Which result bytes are known -/

theorem getD_false_of_slice_any {u : List Bool} {m n : Nat} (h : ((u.drop m).take n).any id = false) {j : Nat} (hm : m ≤ j)
    (hn : j < m + n) : u.getD j false = false := by
  rcases Nat.lt_or_ge j u.length with hlt | hge
  · obtain ⟨d, rfl⟩ : ∃ d, j = m + d := ⟨j - m, by omega⟩
    have hmem : u[m + d] ∈ (u.drop m).take n :=
      List.mem_iff_getElem.2 ⟨d, by simp only [List.length_take, List.length_drop]; omega, by simp⟩
    rw [List.getD_eq_getElem _ _ hlt]
    simpa using List.any_eq_false.1 h _ hmem
  · exact List.getD_eq_default _ _ hge

/-- Whether message byte k holds `any`. -/
def messageUnknown (s : State) (k : Nat) : Bool := (unknownBytes s).getD k false

/-- Operands that agree where they are known give results that agree where they are known, before unpadding
(70_reset_and_hazards.md R273). -/
theorem rawResult_agree (i : Instr) (nr : Nat) (w : ExpKey) {s : State} {p q iv iv' : Bytes} (hiv : iv.length = 16)
    (hiv' : i = .encCbc ∨ i = .decCbc → iv' = iv) (h : AgreeWhereKnown (messageUnknown s) p q) :
    AgreeWhereKnown (resultUnknown i s) (rawResult i nr w p iv) (rawResult i nr w q iv') := by
  have hecb (k : Nat) (hk : ecbUnknown (unknownBytes s) k = false) (j : Nat) : 16 * (k / 16) ≤ j → j < 16 * (k / 16) + 16 →
      messageUnknown s j = false := getD_false_of_slice_any hk
  have hblk (k : Nat) (hlt : k < 16) (hk : ecbUnknown (unknownBytes s) k = false) (j : Nat) (hj : j < 16) :
      messageUnknown s j = false := hecb k hk j (by omega) (by omega)
  cases i with
  | keyexp => exact ⟨rfl, fun _ _ => rfl⟩
  | encEcb => exact h.pad.blockwise (cipherBlock_length w nr) hecb
  | decEcb => exact h.blockwise (invCipherBlock_length w nr) hecb
  | encCbc =>
    rw [hiv' (.inl rfl)]
    exact h.pad.cbcEnc w nr iv fun k hk j hj =>
      getD_false_of_slice_any (m := 0) (by simpa [resultUnknown, cbcEncUnknown] using hk) (Nat.zero_le j) (by omega)
  | decCbc =>
    have hxor := (h.blockwise (invCipherBlock_length w nr) hecb).xorBytes (h.cbcOperand hiv)
    have hraw (c : Bytes) : cbcDecRaw c w nr iv = xorBytes ((blocks c).flatMap (invCipherBlock w nr)) (iv ++ (blocks c).flatten) :=
      cbcDecBlocks_eq_xorBytes w nr iv hiv _ fun _ => length_of_mem_blocks
    rw [hiv' (.inr rfl), rawResult, rawResult, hraw, hraw]
    exact hxor
  | encBlk => exact h.firstBlock (cipherBlock_length w nr) hblk
  | decBlk => exact h.firstBlock (invCipherBlock_length w nr) hblk

/-! ### States with the same operands -/

section
variable {i : Instr} {s s' : State}

theorem SameOperands.keyWords_eq (h : SameOperands i s s') : keyWords s' = keyWords s := by
  rw [keyWords, keyWords, h.nk]
  refine List.ext_getElem (by simp) fun j hj _ => ?_
  simp only [List.length_take, Vector.length_toList] at hj
  simpa using h.key ⟨j, by omega⟩ (by show j < s.nk.toNat; omega)

theorem SameOperands.keySchedule (h : SameOperands i s s') {nr : Nat} {w : ExpKey} (hk : KeySchedule s nr w) :
    KeySchedule s' nr w := by
  unfold KeySchedule
  rw [h.nk, h.keyWords_eq]
  exact hk

theorem SameOperands.check_eq (h : SameOperands i s s') : check (.command i) s' = check (.command i) s := by
  have hlen : checkLengths i s' = checkLengths i s := by
    cases i <;> simp only [checkLengths, checkData, checkEncrypt, checkDecrypt, checkBlock, h.bufBytes, h.len, ne_eq, reduceCtorEq,
      not_false_eq_true]
  simp only [check, h.nk, hlen]

theorem SameOperands.unknownBytes_eq (h : SameOperands i s s') (hi : i ≠ .keyexp) : unknownBytes s' = unknownBytes s := by
  rw [unknownBytes, unknownBytes, h.len hi]
  refine List.map_congr_left fun k hk => ?_
  rw [h.message hi k (List.mem_range.1 hk)]

theorem SameOperands.resultUnknown_eq (h : SameOperands i s s') : resultUnknown i s' = resultUnknown i s := by
  funext k
  cases i with
  | keyexp => rfl
  | _ => simp only [resultUnknown, h.unknownBytes_eq (by decide)]

theorem SameOperands.ivBytes_eq (h : SameOperands i s s') (hi : i = .encCbc ∨ i = .decCbc) : ivBytes s' = ivBytes s := by
  rw [ivBytes, ivBytes, h.iv hi]

/-- The two messages agree on every byte that has been written. -/
theorem SameOperands.message_agree (h : SameOperands i s s') (hi : i ≠ .keyexp) :
    AgreeWhereKnown (messageUnknown s) (Machine.message s) (Machine.message s') := by
  have hlen : (Machine.message s).length = (Machine.message s').length := by rw [message_length, message_length, h.len hi]
  refine ⟨hlen, fun k hk => ?_⟩
  rcases Nat.lt_or_ge k s.len.toNat with hlt | hge
  · have hbyte : inByte s k = inByte s' k := by
      rw [messageUnknown, unknownBytes_getD s k hlt] at hk
      obtain ⟨b, hb⟩ := Option.isSome_iff_exists.1 (by simpa using hk)
      simp only [inByte, byteAt, h.message hi k hlt, hb]
    simpa [Machine.message, h.len hi, hlt] using hbyte
  · rw [List.getD_eq_default _ _ (by rwa [message_length]), List.getD_eq_default _ _ (by rwa [← hlen, message_length])]

theorem SameOperands.drawnRaw_agree (h : SameOperands i s s') (hi : i ≠ .keyexp) (nr : Nat) (w : ExpKey) :
    AgreeWhereKnown (resultUnknown i s) (drawnRaw i nr w s) (drawnRaw i nr w s') := by
  rw [drawnRaw, drawnRaw, h.resultUnknown_eq]
  exact (rawResult_agree i nr w (ivBytes_length s) h.ivBytes_eq (h.message_agree hi)).drawUnknown _ _

end

theorem dataBytes_getD (i : Instr) (nr : Nat) (w : ExpKey) (s : State) {k : Nat} (hk : k < (dataBytes i nr w s).length) :
    (dataBytes i nr w s).getD k 0 = (drawnRaw i nr w s).getD k 0 := by
  cases i with
  | decEcb | decCbc => exact unpad_getD _ hk
  | _ => rfl

/-- A decryption's result has the message's length before unpadding. -/
theorem drawnRaw_length_of_decrypt {i : Instr} {s : State} (nr : Nat) (w : ExpKey) (hi : i = .decEcb ∨ i = .decCbc)
    (hc : check (.command i) s = none) : (drawnRaw i nr w s).length = s.len.toNat := by
  have hl := checkLengths_none (checkLengths_of_check hc)
  rw [drawnRaw, drawUnknown_length, ← message_length]
  rcases hi with rfl | rfl
  · obtain ⟨-, hwhole, -⟩ := hl
    exact ecbDecRaw_length _ w nr (by rwa [message_length])
  · obtain ⟨-, hwhole, -⟩ := hl
    exact cbcDecRaw_length _ w nr _ (ivBytes_length s) (by rwa [message_length])

/-- The results have one length, if the byte the unpadder reads is known. -/
theorem SameOperands.dataBytes_length {i : Instr} {s s' : State} (h : SameOperands i s s') (hi : i ≠ .keyexp) (nr : Nat) (w : ExpKey)
    (hc : check (.command i) s = none)
    (hlast : i = .decEcb ∨ i = .decCbc → resultUnknown i s (s.len.toNat - 1) = false) :
    (dataBytes i nr w s).length = (dataBytes i nr w s').length := by
  have hagree := h.drawnRaw_agree hi nr w
  have hunpad (hd : i = .decEcb ∨ i = .decCbc) : (unpad (drawnRaw i nr w s)).length = (unpad (drawnRaw i nr w s')).length :=
    hagree.unpad_length_eq (by rw [drawnRaw_length_of_decrypt nr w hd hc]; exact hlast hd)
  cases i with
  | decEcb => exact hunpad (.inl rfl)
  | decCbc => exact hunpad (.inr rfl)
  | _ => exact hagree.1

theorem errCode_ne_zero (e : CmdError) : errCode e ≠ 0 := by cases e <;> decide

/-- A write-back of one expansion leaves the same RK words below its length, whatever RK held before. -/
theorem KeySchedule.storeRk_rk_eq {s : State} {nr : Nat} {w : ExpKey} (hk : KeySchedule s nr w) (u u' : State) :
    ∀ n, roundsOf s.nk.toNat = some n → ∀ j : Fin 60, j.val < 4 * (n + 1) → (storeRk w u').rk[j] = (storeRk w u).rk[j] := by
  obtain ⟨hnr, -, hlen⟩ := hk
  intro n hn j hj
  cases hnr.symm.trans hn
  rw [← hlen] at hj
  rw [(rkHolds_storeRk w u').written j hj, (rkHolds_storeRk w u).written j hj]

theorem lt_length_of_lt_writeOut_outlen {r : Bytes} {s : State} {k : Nat} (hk : k < (writeOut r s).outlen.toNat) :
    k < r.length :=
  Nat.lt_of_lt_of_le hk (by simpa [writeOut] using Nat.mod_le _ _)

/-- What two data commands on the same operands leave in OUTLEN and OUT, where the spec does not mark it `any`. -/
theorem SameOperands.out_eq {i : Instr} {s s' : State} (h : SameOperands i s s') (hi : i ≠ .keyexp) (nr : Nat) (w : ExpKey)
    (hc : check (.command i) s = none) {u u' : State} :
    ((i = .decEcb ∨ i = .decCbc → resultUnknown i s (s.len.toNat - 1) = false) →
      (writeOut (dataBytes i nr w s') u').outlen = (writeOut (dataBytes i nr w s) u).outlen) ∧
    ∀ k, k < (writeOut (dataBytes i nr w s) u).outlen.toNat → k < (writeOut (dataBytes i nr w s') u').outlen.toNat →
      resultUnknown i s k = false →
      outByte (writeOut (dataBytes i nr w s') u') k = outByte (writeOut (dataBytes i nr w s) u) k := by
  refine ⟨fun hlast => ?_, fun k hk hk' hknown => ?_⟩
  · show BitVec.ofNat 32 _ = BitVec.ofNat 32 _
    rw [h.dataBytes_length hi nr w hc hlast]
  · have hlt := lt_length_of_lt_writeOut_outlen hk
    have hlt' := lt_length_of_lt_writeOut_outlen hk'
    rw [outByte_writeOut _ _ _ hlt, outByte_writeOut _ _ _ hlt', dataBytes_getD _ _ _ _ hlt, dataBytes_getD _ _ _ _ hlt']
    exact ((h.drawnRaw_agree hi nr w).2 k hknown).symm

/-- Settles O55: the check and the key expansion read nothing but operands, and the results agree byte by byte where no unwritten
message byte reaches. -/
theorem commandsDependOnOperandsOnly : Obligations.CommandsDependOnOperandsOnly := by
  intro i s s' t t' h ht ht'
  rcases exec_cases i s with ⟨e, hc, hx⟩ | ⟨nr, w, hc, hk, rfl, hx⟩ | ⟨nr, w, -, hc, hk, hi, -, -⟩
  · cases hx.symm.trans ht
    cases (exec_checkError (h.check_eq.trans hc)).symm.trans ht'
    exact ⟨rfl, fun h0 => absurd h0 (errCode_ne_zero e)⟩
  · cases hx.symm.trans ht
    cases (exec_keyexp (h.check_eq.trans hc) (h.keySchedule hk)).symm.trans ht'
    exact ⟨rfl, fun _ => ⟨hk.storeRk_rk_eq s s', fun hi => absurd rfl hi⟩⟩
  · cases (exec_dataBytes hi hc hk).symm.trans ht
    cases (exec_dataBytes hi (h.check_eq.trans hc) (h.keySchedule hk)).symm.trans ht'
    exact ⟨rfl, fun _ => ⟨hk.storeRk_rk_eq s s', fun _ => h.out_eq hi nr w hc⟩⟩

end Sys2Proof.Machine
end

section
/-! SUPPORT and PROOF. What a step of each agent can do, said once, and what follows for the whole machine: who writes which state
(10_state.md R41) and the invariant of Safety.lean. -/

namespace Sys2Proof.Machine

/-! ### What an update keeps -/

/-- The results, the buffer memory and the draws behind them are kept; free values may have been drawn. -/
structure StorageKept (s t : State) : Prop where
  bufBytes : t.bufBytes = s.bufBytes
  outlen : t.outlen = s.outlen
  rk : t.rk = s.rk
  mem : t.mem = s.mem
  inDraw : t.inDraw = s.inDraw
  outDraw : t.outDraw = s.outDraw
  draws : s.draws ≤ t.draws

theorem StorageKept.resultsKept {s t : State} (h : StorageKept s t) : ResultsKept s t :=
  ⟨h.rk, h.outlen, fun a _ => byteAt_congr h.mem h.inDraw h.outDraw a⟩

theorem ResultsKept.trans {s t u : State} (h : ResultsKept s t) (g : ResultsKept t u) : ResultsKept s u :=
  ⟨g.rk.trans h.rk, g.outlen.trans h.outlen, fun a ha => (g.outBytes a ha).trans (h.outBytes a ha)⟩

/-- STATUS is one the block produces: the part of the invariant that speaks of BUSY, DONE and ERR. -/
structure StatusValid (s : State) : Prop where
  busyClear : s.busy = true → s.done = false ∧ s.err = 0
  errProduced : s.err = 0 ∨ s.err = 1 ∨ s.err = 2 ∨ s.err = 4 ∨ s.err = 5

theorem State.Inv.statusValid {s : State} (h : s.Inv) : StatusValid s := ⟨h.busyClear, h.errProduced⟩

/-- An update that keeps the storage and leaves a valid STATUS keeps the invariant. -/
theorem State.Inv.of_storageKept {s t : State} (h : s.Inv) (hk : StorageKept s t) (hs : StatusValid t) : t.Inv := by
  obtain ⟨hbuf, hout, hrk, hmem, hin, hod, hd⟩ := hk
  obtain ⟨hinPast, houtPast, hrkPast⟩ := h.drawsPast
  refine ⟨?_, ?_, ?_, ?_, hs.busyClear, hs.errProduced, ?_⟩
  · rw [hmem]; exact h.memWf
  · rw [hmem, hbuf, hout]; exact h.memMapped
  · rw [hmem, hout]; exact h.outDefined
  · rw [hout, hbuf]; exact h.outlenFits
  · rw [hin, hod, hrk]
    exact ⟨by omega, by omega, fun i n hi => Nat.lt_of_lt_of_le (hrkPast i n hi) hd⟩

/-! ### The host's step -/

/-- `t` is `s` but for what the host holds itself (its program, names and observations) and the free values drawn since. -/
def HostOnly (s t : State) : Prop :=
  ∃ (p : List HostOp) (n : List (String × Word)) (o : List Response) (d : Nat), s.draws ≤ d ∧
    t = { s with prog := p, vars := n, trace := o, draws := d }

theorem HostOnly.refl (s : State) : HostOnly s s := ⟨_, _, _, _, Nat.le_refl _, rfl⟩

theorem HostOnly.trans {s t u : State} (h : HostOnly s t) (g : HostOnly t u) : HostOnly s u := by
  obtain ⟨_, _, _, d, hd, rfl⟩ := h
  obtain ⟨p, n, o, e, he, rfl⟩ := g
  exact ⟨p, n, o, e, Nat.le_trans hd he, rfl⟩

theorem HostOnly.storageKept {s t : State} (h : HostOnly s t) : StorageKept s t := by
  obtain ⟨_, _, _, _, hd, rfl⟩ := h
  exact ⟨rfl, rfl, rfl, rfl, rfl, rfl, hd⟩

theorem HostOnly.statusValid {s t : State} (h : HostOnly s t) (hs : StatusValid s) : StatusValid t := by
  obtain ⟨_, _, _, _, _, rfl⟩ := h
  exact ⟨hs.busyClear, hs.errProduced⟩

theorem hostOnly_program (p : List HostOp) (s : State) : HostOnly s { s with prog := p } := ⟨_, _, _, _, Nat.le_refl _, rfl⟩

theorem hostOnly_vars (n : List (String × Word)) (s : State) : HostOnly s { s with vars := n } := ⟨_, _, _, _, Nat.le_refl _, rfl⟩

theorem hostOnly_draw (s : State) : HostOnly s { s with draws := s.draws + 1 } := ⟨_, _, _, _, Nat.le_succ _, rfl⟩

theorem hostOnly_observe (r : Response) (s : State) : HostOnly s (observe r s) := ⟨_, _, _, _, Nat.le_refl _, rfl⟩

theorem hostOnly_retry (op : HostOp) (s : State) : HostOnly s (retry op s) := hostOnly_program _ s

theorem hostOnly_hostValue (v : HostVal) (s : State) : HostOnly s (hostValue v s).2 := by
  rcases hostValue_state v s with h | h <;> rw [h]
  · exact .refl s
  · exact hostOnly_draw s

theorem hostOnly_busRead (addr : BitVec 18) (lanes : BitVec 4) (s : State) : HostOnly s (busRead addr lanes s).2 := by
  rcases busRead_state addr lanes s with h | h <;> rw [h]
  · exact .refl s
  · exact hostOnly_draw s

/-- A write has the same effect whatever the host holds. -/
theorem HostOnly.writeTarget {s u : State} (h : HostOnly s u) (t : Target) (v : Word) :
    HostOnly (writeTarget t v s) (writeTarget t v u) := by
  obtain ⟨p, n, o, d, hd, rfl⟩ := h
  cases t <;> exact ⟨p, n, o, d, hd, rfl⟩

/-- What the host's next line can do to AESCORE (20_memory.md R55 to R61): nothing, set WERR by a write dropped while BUSY, or write
the location that it reaches. -/
inductive HostEffect (s : State) : State → Prop
  | unchanged : HostEffect s s
  | dropped (busy : s.busy = true) : HostEffect s { s with werr := true }
  | written {addr : BitVec 18} {lanes : BitVec 4} {rest : List HostOp} (v : HostVal) (t : Target)
      (line : s.prog = .write addr lanes v :: rest) (reached : target s addr lanes = some t)
      (allowed : s.busy = true → t.writableWhileBusy = true) : HostEffect s (writeTarget t (hostValue v s).1 s)

/-- Every host step has one of the effects of `HostEffect`, and otherwise changes only what the host holds. -/
theorem hostStep_effect (s : State) : ∃ u, HostEffect s u ∧ HostOnly u (hostStep s) := by
  unfold hostStep
  split
  · exact ⟨s, .unchanged, .refl s⟩
  next op rest hprog =>
    have hp : HostOnly s { s with prog := rest } := hostOnly_program rest s
    cases op with
    | write addr lanes v =>
      have hv := hp.trans (hostOnly_hostValue v { s with prog := rest })
      have hval : (hostValue v { s with prog := rest }).1 = (hostValue v s).1 := by
        cases v with
        | lit w => rfl
        | name x => simp only [hostValue]; split <;> rfl
      simp only [runHostOp, hval]
      generalize (hostValue v { s with prog := rest }).2 = u at hv ⊢
      rcases busWrite_cases addr lanes (hostValue v s).1 u with h | ⟨hbusy, h⟩ | ⟨t, ht, hallow, h⟩ <;> rw [h]
      · exact ⟨s, .unchanged, hv.trans (hostOnly_observe _ _)⟩
      · obtain ⟨p, n, o, d, hd, rfl⟩ := hv
        exact ⟨_, .dropped hbusy, p, n, _, d, hd, rfl⟩
      · have hw := hv.writeTarget t (hostValue v s).1
        obtain ⟨_, _, _, _, -, rfl⟩ := hv
        exact ⟨_, .written v t hprog ht hallow, hw.trans (hostOnly_observe _ _)⟩
    | read addr lanes name =>
      exact ⟨s, .unchanged, ((hp.trans (hostOnly_busRead addr lanes _)).trans (hostOnly_observe _ _)).trans (hostOnly_vars _ _)⟩
    | poll addr mask value =>
      have hr := (hp.trans (hostOnly_busRead addr 15 _)).trans (hostOnly_observe (busRead addr 15 { s with prog := rest }).1 _)
      refine ⟨s, .unchanged, ?_⟩
      simp only [runHostOp]
      split
      · exact hr
      · exact hr.trans (hostOnly_retry _ _)
    | waitIrq =>
      refine ⟨s, .unchanged, ?_⟩
      simp only [runHostOp]
      split
      · exact hp
      · exact hp.trans (hostOnly_retry _ _)

/-- A write of a location leaves the storage as it is, unless the location is a word of IN. -/
theorem writeTarget_cases (t : Target) (v : Word) (s : State) :
    (∃ k, t = .inWord k ∧ writeTarget t v s = storeInWord k v s) ∨ StorageKept s (writeTarget t v s) := by
  cases t with
  | inWord k => exact .inl ⟨k, rfl, rfl⟩
  | _ => exact .inr ⟨rfl, rfl, rfl, rfl, rfl, rfl, Nat.le_refl _⟩

/-- A word of IN that a transaction reaches lies inside the IN window (20_memory.md R51). -/
theorem target_inWord {s : State} {addr : BitVec 18} {lanes : BitVec 4} {k : Nat} (h : target s addr lanes = some (.inWord k)) :
    4 * k + 4 ≤ s.bufBytes.bytes := by
  obtain ⟨h4, -, hmap⟩ := target_some h
  obtain ⟨hlo, hhi, hk⟩ : LiesAt _ (.inWord k) _ := liesAt_of_mapAddress hmap
  have hb := bufBytes_legal s.bufBytes
  have hi := inBase_eq
  omega

/-- The IN window ends where OUT begins or earlier (00_scope.md R10, 20_memory.md R51). -/
theorem inWindow_le_outBase (b : BufBytes) : inBase + b.bytes ≤ outBase := by
  have hb := bufBytes_legal b
  have hi := inBase_eq
  have ho := outBase_eq
  omega

theorem lookup_storeInWord_of_out {k a : Nat} {v : Word} {s : State} (hk : 4 * k + 4 ≤ s.bufBytes.bytes) (ha : outBase ≤ a) :
    Memory.lookup a (storeInWord k v s).mem = Memory.lookup a s.mem := by
  have hw := inWindow_le_outBase s.bufBytes
  rw [storeInWord_mem, lookup_storeBytes, wordBytes_length, if_neg (by omega)]

theorem resultsKept_storeInWord {k : Nat} {v : Word} {s : State} (hk : 4 * k + 4 ≤ s.bufBytes.bytes) :
    ResultsKept s (storeInWord k v s) :=
  ⟨rfl, rfl, fun _ ha => byteAt_eq_of_lookup (lookup_storeInWord_of_out hk ha) rfl fun _ => rfl⟩

theorem HostEffect.resultsKept {s u : State} (h : HostEffect s u) : ResultsKept s u := by
  cases h with
  | unchanged | dropped => exact ⟨rfl, rfl, fun _ _ => rfl⟩
  | written v t _ reached =>
    rcases writeTarget_cases t (hostValue v s).1 s with ⟨k, rfl, h⟩ | h
    · exact resultsKept_storeInWord (target_inWord reached)
    · exact h.resultsKept

/-- The host's step writes no result (10_state.md R41). -/
theorem hostStep_resultsKept (s : State) : ResultsKept s (hostStep s) := by
  obtain ⟨u, heff, hhost⟩ := hostStep_effect s
  exact heff.resultsKept.trans hhost.storageKept.resultsKept

/-! ### The core's step -/

/-- The guard of PaddingOverflow is never met (43_modes_padding.md R181), so no length check answers it. -/
theorem checkLengths_ne_paddingOverflow (i : Instr) (s : State) : checkLengths i s ≠ some .paddingOverflow := by
  have hguard : ¬256 ≤ padLength s.len.toNat := Nat.not_le.2 (padLength_lt _)
  cases i with
  | keyexp => simp [checkLengths]
  | encEcb | encCbc =>
    simp only [checkLengths, checkData, checkEncrypt, if_neg hguard]
    split_ifs <;> simp
  | decEcb | decCbc =>
    simp only [checkLengths, checkData, checkDecrypt]
    split_ifs <;> simp
  | encBlk | decBlk =>
    simp only [checkLengths, checkData, checkBlock]
    split_ifs <;> simp

theorem check_ne_paddingOverflow (d : Decoded) (s : State) : check d s ≠ some .paddingOverflow := by
  cases d with
  | invalid r => simp [check]
  | command i =>
    rw [check]
    split
    · exact checkLengths_ne_paddingOverflow i s
    · simp

/-- The codes of the errors that a check answers (60_exceptions.md R240). -/
theorem errCode_of_check {d : Decoded} {s : State} {e : CmdError} (h : check d s = some e) :
    errCode e = 1 ∨ errCode e = 2 ∨ errCode e = 4 ∨ errCode e = 5 := by
  cases e with
  | paddingOverflow => exact absurd h (check_ne_paddingOverflow d s)
  | _ => decide

/-- What the core's step can do: nothing while idle; or complete a command with an error, with a new RK, or with a new RK and a result
that fits in OUT. -/
inductive CoreEffect (s : State) : State → Prop
  | idle (notBusy : s.busy = false) : CoreEffect s s
  | failed {code : BitVec 4} (reported : code = 1 ∨ code = 2 ∨ code = 4 ∨ code = 5) : CoreEffect s (complete code s)
  | keyExpanded (w : ExpKey) : CoreEffect s (complete 0 (storeRk w s))
  | dataWritten (w : ExpKey) {r : Bytes} (fits : r.length ≤ s.bufBytes.bytes) :
      CoreEffect s (complete 0 (writeOut r (storeRk w s)))

theorem exec_effect {i : Instr} {s t : State} (h : exec i s = .next t) : CoreEffect s t := by
  rcases exec_cases i s with ⟨e, hc, hx⟩ | ⟨_, w, -, -, -, hx⟩ | ⟨_, w, r, -, -, -, hr, hx⟩ <;> cases hx.symm.trans h
  · exact .failed (errCode_of_check hc)
  · exact .keyExpanded w
  · exact .dataWritten w hr

theorem coreStep_effect {s t : State} (h : coreStep s = .next t) : CoreEffect s t := by
  cases hb : s.busy with
  | false => cases (coreStep_idle hb).symm.trans h; exact .idle hb
  | true =>
    rcases coreStep_busy hb with ⟨i, -, hx⟩ | ⟨_, -, hx⟩
    · exact exec_effect (hx.symm.trans h)
    · cases hx.symm.trans h
      exact .failed (by decide)

/-- The core's step writes no operand (10_state.md R41). -/
theorem CoreEffect.coreFrame {s t : State} (h : CoreEffect s t) : CoreFrame s t := by
  cases h with
  | idle => constructor <;> intros <;> rfl
  | failed => exact coreFrame_complete _ s
  | keyExpanded w => exact (coreFrame_storeRk w s).trans (coreFrame_complete 0 _)
  | dataWritten w => exact ((coreFrame_storeRk w s).trans (coreFrame_writeOut _ _)).trans (coreFrame_complete 0 _)

/-! ### Steps of the machine -/

theorem step_host {s t : State} (h : step s = .next t) (hturn : nextTurn s = .host) :
    t = hostStep { s with turns := s.turns.tail } := by
  rw [step, hturn] at h
  cases h
  rfl

theorem step_core {s t : State} (h : step s = .next t) (hturn : nextTurn s = .core) :
    CoreEffect { s with turns := s.turns.tail } t := by
  rw [step, hturn] at h
  exact coreStep_effect h

theorem step_reset {s t : State} (h : step s = .next t) (hturn : nextTurn s = .reset) :
    t = applyReset { s with turns := s.turns.tail } := by
  rw [step, hturn] at h
  cases h
  rfl

/-- Settles O56: the frame of the core's step, and the results the host's step keeps. -/
theorem agentsWriteOnlyTheirState : Obligations.AgentsWriteOnlyTheirState := by
  refine ⟨fun s t h hturn => ?_, fun s t h hturn => ?_⟩
  · have hf := (step_core h hturn).coreFrame
    exact ⟨hf.ie, hf.werr, hf.nk, hf.len, hf.key, hf.iv, hf.inBytes⟩
  · cases step_host h hturn
    have hk := hostStep_resultsKept { s with turns := s.turns.tail }
    exact ⟨hk.outlen, hk.rk, hk.outBytes⟩

/-! ### The invariant: the host's step -/

theorem writeTarget_statusValid (t : Target) (v : Word) {s : State} (h : StatusValid s) : StatusValid (writeTarget t v s) := by
  obtain ⟨hclear, herr⟩ := h
  cases t with
  | status =>
    refine ⟨fun hb => ⟨?_, (hclear hb).2⟩, herr⟩
    show (if v.getLsbD 1 then false else s.done) = false
    rw [(hclear hb).1, ite_self]
  | cmd => exact ⟨fun _ => ⟨rfl, rfl⟩, .inl rfl⟩
  | _ => exact ⟨hclear, herr⟩

theorem storeInWord_inv {k : Nat} {v : Word} {s : State} (h : s.Inv) (hk : 4 * k + 4 ≤ s.bufBytes.bytes) :
    (storeInWord k v s).Inv where
  memWf := wf_storeBytes _ _ _ h.memWf
  memMapped c hc := by
    rcases mem_storeBytes hc with hnew | hold
    · rw [wordBytes_length] at hnew
      exact .inl ⟨by omega, by rw [storeInWord_bufBytes]; omega⟩
    · exact h.memMapped c hold
  outDefined j hj := by
    rw [lookup_storeInWord_of_out hk (by omega)]
    exact h.outDefined j hj
  outlenFits := h.outlenFits
  busyClear := h.busyClear
  errProduced := h.errProduced
  drawsPast := h.drawsPast

theorem HostEffect.inv {s u : State} (h : HostEffect s u) (hs : s.Inv) : u.Inv := by
  cases h with
  | unchanged => exact hs
  | dropped => exact hs.of_storageKept ⟨rfl, rfl, rfl, rfl, rfl, rfl, Nat.le_refl _⟩ ⟨hs.busyClear, hs.errProduced⟩
  | written v t _ reached =>
    rcases writeTarget_cases t (hostValue v s).1 s with ⟨k, rfl, h⟩ | h
    · exact storeInWord_inv hs (target_inWord reached)
    · exact hs.of_storageKept h (writeTarget_statusValid t _ hs.statusValid)

theorem hostStep_inv {s : State} (h : s.Inv) : (hostStep s).Inv := by
  obtain ⟨u, heff, hhost⟩ := hostStep_effect s
  have hu := heff.inv h
  exact hu.of_storageKept hhost.storageKept (hhost.statusValid hu.statusValid)

/-! ### The invariant: the core's step -/

theorem complete_inv {code : BitVec 4} {s : State} (h : s.Inv)
    (hcode : code = 0 ∨ code = 1 ∨ code = 2 ∨ code = 4 ∨ code = 5) : (complete code s).Inv :=
  h.of_storageKept ⟨rfl, rfl, rfl, rfl, rfl, rfl, Nat.le_refl _⟩ ⟨fun hb => by simp at hb, hcode⟩

theorem storeRk_inv (w : ExpKey) {s : State} (h : s.Inv) : (storeRk w s).Inv where
  memWf := h.memWf
  memMapped := h.memMapped
  outDefined := h.outDefined
  outlenFits := h.outlenFits
  busyClear := h.busyClear
  errProduced := h.errProduced
  drawsPast := by
    obtain ⟨hin, hout, hrk⟩ := h.drawsPast
    refine ⟨hin, hout, fun i n hi => ?_⟩
    rcases Nat.lt_or_ge i.val w.length with hlt | hge
    · cases ((rkHolds_storeRk w s).written i hlt).symm.trans hi
    · exact hrk i n (((rkHolds_storeRk w s).above i hge).symm.trans hi)

/-- A write of a result that fits: the erased window and the bound on OUTLEN leave no OUT byte of an older result. -/
theorem writeOut_inv {r : Bytes} {s : State} (h : s.Inv) (hr : r.length ≤ s.bufBytes.bytes) : (writeOut r s).Inv := by
  have hb := bufBytes_legal s.bufBytes
  have hlen : (writeOut r s).outlen.toNat = r.length := (outHolds_writeOut r s (by omega)).outlen
  refine ⟨wf_storeBytes _ _ _ (wf_erase _ _ _ h.memWf), fun c hc => ?_, fun k hk => ?_, ?_, h.busyClear, h.errProduced, ?_⟩
  · rw [hlen]
    rcases mem_storeBytes hc with hnew | hold
    · exact .inr hnew
    · obtain ⟨hmem, hwindow⟩ := mem_erase.1 hold
      have hfits := h.outlenFits
      exact (h.memMapped c hmem).imp id fun hout => absurd hout (by omega)
  · rw [hlen] at hk
    rw [writeOut_mem, lookup_storeBytes, if_pos (by omega)]
    exact Option.some_ne_none _
  · rw [hlen]
    exact hr
  · obtain ⟨hin, -, hrk⟩ := h.drawsPast
    rw [writeOut_inDraw, writeOut_outDraw, writeOut_draws, writeOut_rk]
    exact ⟨by omega, by omega, fun i n hi => Nat.lt_add_right 2 (hrk i n hi)⟩

theorem CoreEffect.inv {s t : State} (h : CoreEffect s t) (hs : s.Inv) : t.Inv := by
  cases h with
  | idle => exact hs
  | failed reported => exact complete_inv hs (.inr reported)
  | keyExpanded w => exact complete_inv (storeRk_inv w hs) (.inl rfl)
  | dataWritten w fits => exact complete_inv (writeOut_inv (storeRk_inv w hs) fits) (.inl rfl)

/-! ### The invariant: reset -/

/-- Reset gives the invariant from any state. -/
theorem applyReset_inv (s : State) : (applyReset s).Inv where
  memWf := List.Pairwise.nil
  memMapped _ hc := by cases hc
  outDefined k hk := absurd hk (Nat.not_lt_zero k)
  outlenFits := Nat.zero_le _
  busyClear hb := by cases hb
  errProduced := .inl rfl
  drawsPast := by
    refine ⟨Nat.add_lt_add_left (by decide) _, Nat.add_lt_add_left (by decide) _, fun i n hi => ?_⟩
    have hcell : Cell.drawn (s.draws + i.val) = .drawn n := by simpa [drawnCells] using hi
    cases hcell
    rw [applyReset_draws]
    omega

/-- Settles O51: the state right after reset is what a reset step leaves when nothing has been drawn yet. -/
theorem invariantHoldsAtReset : Obligations.InvariantHoldsAtReset :=
  applyReset_inv { State.reset with draws := 0 }

/-- Settles O52, by the agent whose turn it is. -/
theorem stepKeepsInvariant : Obligations.StepKeepsInvariant := by
  intro s t hs h
  have hturns : { s with turns := s.turns.tail }.Inv := 
    hs.of_storageKept ⟨rfl, rfl, rfl, rfl, rfl, rfl, Nat.le_refl _⟩ ⟨hs.busyClear, hs.errProduced⟩
  cases hturn : nextTurn s with
  | host => cases step_host h hturn; exact hostStep_inv hturns
  | core => exact (step_core h hturn).inv hturns
  | reset => cases step_reset h hturn; exact applyReset_inv _

/-! ### Registers after reset, and irq -/

/-- A flag stands in bit 0 of its word. -/
@[simp] theorem flagWord_getElem (b : Bool) (i : Nat) (h : i < 32) : (flagWord b)[i] = (b && decide (i = 0)) := by
  cases b <;> simp [flagWord]

theorem ctrlWord_getLsbD_zero (s : State) : (ctrlWord s).getLsbD 0 = s.ie := by
  simp [ctrlWord]

theorem statusWord_getLsbD_one (s : State) : (statusWord s).getLsbD 1 = s.done := by
  simp [statusWord]

/-- Settles O5: IE stands in bit 0 of CTRL and DONE in bit 1 of STATUS. -/
theorem irqIsEnableAndDone : Obligations.IrqIsEnableAndDone := by
  refine ⟨fun s => ?_, rfl⟩
  rw [ctrlWord_getLsbD_zero, statusWord_getLsbD_one, irq]

/-- Settles O4: every register holds its value of the table, read off the reset state. -/
theorem resetValues : Obligations.ResetValues := by
  refine ⟨rfl, by decide, rfl, rfl, rfl, rfl, by decide, by decide, fun i => ⟨i.val, ?_⟩, rfl, rfl⟩
  simp [State.reset, drawnCells]

end Sys2Proof.Machine
end

section
/-! PROOF. The host bus (20_memory.md): the location each address reaches, what a write and a read of it do while idle and while BUSY,
which transactions get ERROR, that no two addresses alias, and that a command in flight keeps its operands. -/

namespace Sys2Proof.Machine

/-! ### The location each address reaches -/

theorem target_of_mapAddress {s : State} {a : Nat} {t : Target} (h18 : a < 2 ^ 18) (h4 : a % 4 = 0)
    (h : mapAddress s.bufBytes.bytes a = some t) : target s (BitVec.ofNat 18 a) 15 = some t := by
  rw [target, BitVec.toNat_ofNat, Nat.mod_eq_of_lt h18, if_pos ⟨h4, rfl⟩, h]

theorem target_ctrl (s : State) : target s 0x00000 15 = some .ctrl := rfl
theorem target_status (s : State) : target s 0x00004 15 = some .status := rfl
theorem target_cmd (s : State) : target s 0x00008 15 = some .cmd := rfl
theorem target_keycfg (s : State) : target s 0x0000C 15 = some .keycfg := rfl
theorem target_len (s : State) : target s 0x00010 15 = some .len := rfl
theorem target_outlen (s : State) : target s 0x00014 15 = some .outlen := rfl
theorem target_caps (s : State) : target s 0x00018 15 = some .caps := rfl

theorem target_key (s : State) (j : Fin 8) : target s (BitVec.ofNat 18 (0x20 + 4 * j.val)) 15 = some (.key j) :=
  target_of_mapAddress (by omega) (by omega) (mapAddress_key _ j)

theorem target_iv (s : State) (c : Fin 4) : target s (BitVec.ofNat 18 (0x40 + 4 * c.val)) 15 = some (.iv c) :=
  target_of_mapAddress (by omega) (by omega) (mapAddress_iv _ c)

theorem target_rk (s : State) (i : Fin 60) : target s (BitVec.ofNat 18 (0x100 + 4 * i.val)) 15 = some (.rk i) :=
  target_of_mapAddress (by omega) (by omega) (mapAddress_rk _ i)

theorem target_in {s : State} {k : Nat} (hk : 4 * k < s.bufBytes.bytes) :
    target s (BitVec.ofNat 18 (0x10000 + 4 * k)) 15 = some (.inWord k) := by
  have hb := bufBytes_legal s.bufBytes
  exact target_of_mapAddress (by omega) (by omega) (mapAddress_in _ k hk)

theorem target_out {s : State} {k : Nat} (hk : 4 * k < s.bufBytes.bytes) :
    target s (BitVec.ofNat 18 (0x20000 + 4 * k)) 15 = some (.outWord k) := by
  have hb := bufBytes_legal s.bufBytes
  exact target_of_mapAddress (by omega) (by omega) (mapAddress_out _ k hk)

/-- Two aligned addresses that lie at one location are equal (20_memory.md R52). -/
theorem LiesAt.unique {b x y : Nat} {t : Target} (hx : LiesAt b t x) (hy : LiesAt b t y) (hx4 : x % 4 = 0) (hy4 : y % 4 = 0) :
    x = y := by
  have hi := inBase_eq
  have ho := outBase_eq
  cases t with
  | key | iv | rk | inWord | outWord =>
    obtain ⟨hxlo, -, hxi⟩ := hx
    obtain ⟨hylo, -, hyi⟩ := hy
    omega
  | _ => exact hx.trans hy.symm

/-- Settles O11: the windows of the register files, and an address read back from the location it reaches. -/
theorem addressesDoNotAlias : Obligations.AddressesDoNotAlias := fun b =>
  ⟨mapAddress_key b.bytes, mapAddress_iv b.bytes, mapAddress_rk b.bytes, fun _ _ _ hx4 hy4 hx hy =>
    (liesAt_of_mapAddress hx).unique (liesAt_of_mapAddress hy) hx4 hy4⟩

/-! ### Transactions that reach no location -/

theorem busRead_of_target_none {s : State} {addr : BitVec 18} {lanes : BitVec 4} (h : target s addr lanes = none) :
    busRead addr lanes s = (.error, s) := by
  rw [busRead, h]

theorem busWrite_of_target_none {s : State} {addr : BitVec 18} {lanes : BitVec 4} (v : Word) (h : target s addr lanes = none) :
    busWrite addr lanes v s = (.error, s) := by
  rw [busWrite, h]

/-- A location lies in one of the mapped ranges of 20_memory.md R51. -/
theorem LiesAt.mapped {b a : Nat} {t : Target} (h : LiesAt b t a) :
    a < 0x1C ∨ (0x20 ≤ a ∧ a < 0x50) ∨ (0x100 ≤ a ∧ a < 0x1F0) ∨ (0x10000 ≤ a ∧ a < 0x10000 + b) ∨
      (0x20000 ≤ a ∧ a < 0x20000 + b) := by
  have hi := inBase_eq
  have ho := outBase_eq
  cases t with
  | key | iv | rk | inWord | outWord =>
    obtain ⟨hlo, hhi, -⟩ := h
    omega
  | _ =>
    cases h
    exact .inl (by decide)

/-- Settles O10: a transaction that reached a location would be aligned, enable all four lanes and lie in a mapped range. -/
theorem badTransactionGetsError : Obligations.BadTransactionGetsError := by
  intro s addr lanes v hbad
  have hnone : target s addr lanes = none := by
    by_contra hne
    obtain ⟨t, ht⟩ := Option.ne_none_iff_exists'.1 hne
    obtain ⟨h4, hlanes, hmap⟩ := target_some ht
    have hrange := (liesAt_of_mapAddress hmap).mapped
    have hb := bufBytes_legal s.bufBytes
    rcases hbad with hbad | hbad | hbad
    · exact hbad h4
    · exact hbad hlanes
    · omega
  exact ⟨busRead_of_target_none hnone, busWrite_of_target_none v hnone⟩

/-! ### Writes that reach a location -/

/-- A write has its effect unless a command in flight drops it (20_memory.md R56, R61). -/
theorem busWrite_effect {s : State} {addr : BitVec 18} {t : Target} (v : Word) (h : target s addr 15 = some t)
    (hallow : s.busy = true → t.writableWhileBusy = true) : busWrite addr 15 v s = (.okay, writeTarget t v s) := by
  obtain ⟨h4, -, hmap⟩ := target_some h
  rw [busWrite_mapped v h4 hmap]
  cases hb : s.busy with
  | false => rfl
  | true => rw [hallow hb]; rfl

theorem busWrite_idle {s : State} {addr : BitVec 18} {t : Target} (v : Word) (hidle : s.busy = false)
    (h : target s addr 15 = some t) : busWrite addr 15 v s = (.okay, writeTarget t v s) :=
  busWrite_effect v h fun hb => absurd (hidle.symm.trans hb) Bool.false_ne_true

/-- What an acknowledgement leaves, flag by flag (10_state.md R24). -/
theorem acknowledge_eq (v : Word) (s : State) :
    acknowledge v s = { s with done := s.done && !v.getLsbD 1, werr := s.werr && !v.getLsbD 2 } := by
  unfold acknowledge
  cases v.getLsbD 1 <;> cases v.getLsbD 2 <;> simp

theorem busWrite_ctrl (v : Word) (s : State) : busWrite 0x00000 15 v s = (.okay, { s with ie := v.getLsbD 0 }) :=
  busWrite_effect v (target_ctrl s) fun _ => rfl

theorem busWrite_status (v : Word) (s : State) :
    busWrite 0x00004 15 v s = (.okay, { s with done := s.done && !v.getLsbD 1, werr := s.werr && !v.getLsbD 2 }) := by
  rw [busWrite_effect v (target_status s) fun _ => rfl, writeTarget, acknowledge_eq]

/-- Every byte of the buffers after a host write of IN word k (20_memory.md R53, R63). -/
theorem byteAt_storeInWord (k : Nat) (v : Word) (s : State) (a : Nat) :
    byteAt (storeInWord k v s) a =
      if inBase + 4 * k ≤ a ∧ a < inBase + 4 * k + 4 then byteOf v (a - (inBase + 4 * k)) else byteAt s a := by
  by_cases ha : inBase ≤ a
  · obtain ⟨x, rfl⟩ := Nat.exists_eq_add_of_le ha
    have hword := inByte_storeInWord k x v s
    simp only [inByte] at hword
    rw [hword]
    simp only [Nat.add_assoc, Nat.add_le_add_iff_left, Nat.add_lt_add_iff_left, Nat.add_sub_add_left]
  · rw [if_neg (by omega)]
    refine byteAt_eq_of_lookup ?_ rfl fun _ => rfl
    rw [storeInWord_mem, lookup_storeBytes, if_neg (by omega)]

/-- Settles O7: an idle write has the effect of the location its address reaches. -/
theorem hostWriteWhileIdle : Obligations.HostWriteWhileIdle := by
  intro s v hidle
  exact ⟨busWrite_ctrl v s, busWrite_status v s, busWrite_idle v hidle (target_cmd s), busWrite_idle v hidle (target_keycfg s),
    busWrite_idle v hidle (target_len s), busWrite_idle v hidle (target_outlen s), busWrite_idle v hidle (target_caps s),
    fun j => busWrite_idle v hidle (target_key s j), fun c => busWrite_idle v hidle (target_iv s c),
    fun i => busWrite_idle v hidle (target_rk s i),
    fun k hk => ⟨_, busWrite_idle v hidle (target_in hk), byteAt_storeInWord k v s⟩,
    fun _ hk => busWrite_idle v hidle (target_out hk)⟩

/-! ### Writes while a command is in flight -/

/-- A command in flight leaves only CTRL and STATUS writable (20_memory.md R61). -/
theorem writableWhileBusy_iff {t : Target} : t.writableWhileBusy = true ↔ t = .ctrl ∨ t = .status := by
  cases t <;> simp [Target.writableWhileBusy]

theorem busWrite_dropped {s : State} {addr : BitVec 18} {t : Target} (v : Word) (hbusy : s.busy = true)
    (h : target s addr 15 = some t) (ht : t.writableWhileBusy = false) :
    busWrite addr 15 v s = (.okay, { s with werr := true }) := by
  obtain ⟨h4, -, hmap⟩ := target_some h
  rw [busWrite_mapped v h4 hmap, hbusy, ht]
  rfl

/-- CTRL lies at 0 and STATUS at 4, so no other address reaches a location writable while BUSY. -/
theorem writableWhileBusy_of_mapAddress {b a : Nat} {t : Target} (h : mapAddress b a = some t) (h0 : a ≠ 0) (h4 : a ≠ 4) :
    t.writableWhileBusy = false := by
  rw [← Bool.not_eq_true, writableWhileBusy_iff]
  rintro (rfl | rfl)
  · exact h0 (liesAt_of_mapAddress h)
  · exact h4 (liesAt_of_mapAddress h)

/-- Settles O8: CTRL and STATUS are the only locations a command in flight leaves writable. -/
theorem hostWriteWhileBusy : Obligations.HostWriteWhileBusy := by
  intro s v hbusy
  refine ⟨busWrite_ctrl v s, busWrite_status v s, fun addr h0 h4 => ⟨fun hsome halign => ?_, fun hnone => ?_⟩⟩
  · obtain ⟨t, hmap⟩ := Option.isSome_iff_exists.1 hsome
    have ht : target s addr 15 = some t := by rw [target, if_pos ⟨halign, rfl⟩, hmap]
    exact busWrite_dropped v hbusy ht (writableWhileBusy_of_mapAddress hmap h0 h4)
  · exact busWrite_of_target_none v (by rw [target, hnone, ite_self])

/-! ### Reads that reach a location -/

/-- A read is exact unless a command in flight may be writing the location (20_memory.md R55, R60). -/
theorem busRead_exact {s : State} {addr : BitVec 18} {t : Target} (h : target s addr 15 = some t)
    (hexact : s.busy = true → t.isResult = false) : busRead addr 15 s = (.data (readTarget t s), s) := by
  obtain ⟨h4, -, hmap⟩ := target_some h
  rw [busRead_mapped h4 hmap]
  cases hb : s.busy with
  | false => rfl
  | true => rw [hexact hb]; rfl

theorem busRead_idle {s : State} {addr : BitVec 18} {t : Target} (hidle : s.busy = false) (h : target s addr 15 = some t) :
    busRead addr 15 s = (.data (readTarget t s), s) :=
  busRead_exact h fun hb => absurd (hidle.symm.trans hb) Bool.false_ne_true

theorem busRead_any {s : State} {addr : BitVec 18} {t : Target} (hbusy : s.busy = true) (h : target s addr 15 = some t)
    (ht : t.isResult = true) : busRead addr 15 s = (.data (Config.freeWord s.draws), { s with draws := s.draws + 1 }) := by
  obtain ⟨h4, -, hmap⟩ := target_some h
  rw [busRead_mapped h4 hmap, hbusy, ht]
  rfl

/-- Settles O9: OUTLEN, RK and OUT are the only locations whose reads depend on BUSY. -/
theorem hostReads : Obligations.HostReads := by
  intro s
  exact ⟨busRead_exact (target_ctrl s) fun _ => rfl, busRead_exact (target_status s) fun _ => rfl,
    busRead_exact (target_cmd s) fun _ => rfl, busRead_exact (target_keycfg s) fun _ => rfl,
    busRead_exact (target_len s) fun _ => rfl, busRead_exact (target_caps s) fun _ => rfl,
    fun j => busRead_exact (target_key s j) fun _ => rfl, fun c => busRead_exact (target_iv s c) fun _ => rfl,
    fun _ hk => busRead_exact (target_in hk) fun _ => rfl,
    fun hidle => ⟨busRead_idle hidle (target_outlen s), fun i => busRead_idle hidle (target_rk s i),
      fun _ hk => busRead_idle hidle (target_out hk)⟩,
    fun hbusy => ⟨busRead_any hbusy (target_outlen s) rfl, fun i => busRead_any hbusy (target_rk s i) rfl,
      fun _ hk => busRead_any hbusy (target_out hk) rfl⟩⟩

/-! ### The operands of a command in flight -/

/-- BUSY, the command word, the operands and every byte of the buffers are the same in both states (20_memory.md R73). -/
structure OperandsKept (s t : State) : Prop where
  busy : t.busy = s.busy
  pendOp : t.pendOp = s.pendOp
  nk : t.nk = s.nk
  len : t.len = s.len
  key : t.key = s.key
  iv : t.iv = s.iv
  bytes : ∀ a, byteAt t a = byteAt s a

theorem OperandsKept.trans {s t u : State} (h : OperandsKept s t) (g : OperandsKept t u) : OperandsKept s u :=
  ⟨g.busy.trans h.busy, g.pendOp.trans h.pendOp, g.nk.trans h.nk, g.len.trans h.len, g.key.trans h.key, g.iv.trans h.iv,
    fun a => (g.bytes a).trans (h.bytes a)⟩

theorem HostOnly.operandsKept {s t : State} (h : HostOnly s t) : OperandsKept s t := by
  obtain ⟨_, _, _, _, -, rfl⟩ := h
  constructor <;> intros <;> rfl

/-- Writes of CTRL and STATUS keep the operands, and a command in flight admits no others. -/
theorem HostEffect.operandsKept {s u : State} (h : HostEffect s u) (hbusy : s.busy = true) : OperandsKept s u := by
  cases h with
  | unchanged | dropped => constructor <;> intros <;> rfl
  | written v t _ _ allowed =>
    rcases writableWhileBusy_iff.1 (allowed hbusy) with rfl | rfl <;> constructor <;> intros <;> rfl

theorem hostStep_operandsKept {s : State} (hbusy : s.busy = true) : OperandsKept s (hostStep s) := by
  obtain ⟨u, heff, hhost⟩ := hostStep_effect s
  exact (heff.operandsKept hbusy).trans hhost.operandsKept

/-- Settles O57: what a host step can do while BUSY, seen from the operands. -/
theorem operandsFrozenWhileBusy : Obligations.OperandsFrozenWhileBusy := by
  intro s t hbusy hturn h
  cases step_host h hturn
  have hk : OperandsKept { s with turns := s.turns.tail } _ := hostStep_operandsKept hbusy
  exact ⟨hk.busy.trans hbusy, hk.pendOp, hk.nk, hk.len, hk.key, hk.iv, hk.bytes⟩

end Sys2Proof.Machine
end

section
/-! PROOF. Encoding (30_encoding.md): which words are commands (R80 to R84, R95), where the flags stand in STATUS (R86), and RUN of a
command (R92, R93). -/

namespace Sys2Proof.Machine

/-! ### Command words -/

theorem decode_encode (i : Instr) : decode (encode i) = .command i := by
  cases i <;> rfl

theorem encode_bounds (i : Instr) : 1 ≤ (encode i).toNat ∧ (encode i).toNat ≤ 7 := by
  cases i <;> decide

/-- The reserved bits are zero exactly in the words of one hexadecimal digit (30_encoding.md R82). -/
theorem rsvField_eq_zero_iff (w : Word) : rsvField w = 0 ↔ w.toNat < 16 := by
  have hw := w.isLt
  rw [← BitVec.toNat_inj, rsvField, BitVec.extractLsb'_toNat, Nat.shiftRight_eq_div_pow]
  simp only [BitVec.ofNat_eq_ofNat, BitVec.toNat_ofNat]
  omega

theorem decode_reservedBits {w : Word} (h : 16 ≤ w.toNat) : decode w = .invalid .reservedBits :=
  if_pos fun hz => absurd ((rsvField_eq_zero_iff w).1 hz) (Nat.not_lt.2 h)

/-- An OP value is a command's or reserved (30_encoding.md R81, R83). -/
theorem opOf_or_reserved (op : BitVec 4) : (∃ i, op = opOf i) ∨ op.toNat = 0 ∨ 8 ≤ op.toNat := by
  have command (i : Instr) (h : op.toNat = (opOf i).toNat) : ∃ i, op = opOf i := ⟨i, BitVec.eq_of_toNat_eq h⟩
  match h : op.toNat with
  | 0 => exact .inr (.inl rfl)
  | 1 => exact .inl (command .keyexp h)
  | 2 => exact .inl (command .encEcb h)
  | 3 => exact .inl (command .decEcb h)
  | 4 => exact .inl (command .encCbc h)
  | 5 => exact .inl (command .decCbc h)
  | 6 => exact .inl (command .encBlk h)
  | 7 => exact .inl (command .decBlk h)
  | n + 8 => exact .inr (.inr (Nat.le_add_left 8 n))

/-- The reserved OPs are finitely many, so the decoder is computed on each (30_encoding.md R83). -/
theorem decode_reservedOp :
    ∀ op : BitVec 4, op.toNat = 0 ∨ 8 ≤ op.toNat → decode (op.setWidth 32) = .invalid .reservedOp := by
  decide

theorem exists_setWidth_of_lt {w : Word} (h : w.toNat < 16) : ∃ op : BitVec 4, w = op.setWidth 32 := by
  refine ⟨w.setWidth 4, BitVec.eq_of_toNat_eq ?_⟩
  simp only [BitVec.toNat_setWidth]
  omega

/-- Everything a word can be: the encoding of a command, a word with a reserved OP, or one with a reserved bit set. -/
theorem decode_cases (w : Word) :
    (∃ i, w = encode i) ∨
    ((w.toNat = 0 ∨ 8 ≤ w.toNat ∧ w.toNat < 16) ∧ decode w = .invalid .reservedOp) ∨
    (16 ≤ w.toNat ∧ decode w = .invalid .reservedBits) := by
  rcases Nat.lt_or_ge w.toNat 16 with hlt | hge
  · obtain ⟨op, rfl⟩ := exists_setWidth_of_lt hlt
    have hop : (op.setWidth 32).toNat = op.toNat := BitVec.toNat_setWidth_of_le (by decide)
    rcases opOf_or_reserved op with ⟨i, rfl⟩ | hres
    · exact .inl ⟨i, rfl⟩
    · exact .inr (.inl ⟨by omega, decode_reservedOp op hres⟩)
  · exact .inr (.inr ⟨hge, decode_reservedBits hge⟩)

theorem decode_eq_command_iff (w : Word) (i : Instr) : decode w = .command i ↔ w = encode i := by
  refine ⟨fun h => ?_, fun h => h ▸ decode_encode i⟩
  rcases decode_cases w with ⟨j, rfl⟩ | ⟨-, hw⟩ | ⟨-, hw⟩
  · rw [Decoded.command.inj ((decode_encode j).symm.trans h)]
  · cases hw.symm.trans h
  · cases hw.symm.trans h

/-- Settles O2: the three kinds of word lie in disjoint ranges. -/
theorem onlySevenWordsAreCommands : Obligations.OnlySevenWordsAreCommands := by
  intro w
  refine ⟨⟨fun ⟨i, h⟩ => ?_, fun hw => ?_⟩, decode_eq_command_iff w, decode_reservedBits, fun hw => ?_⟩
  · rw [(decode_eq_command_iff w i).1 h]
    exact encode_bounds i
  · rcases decode_cases w with ⟨i, rfl⟩ | ⟨hr, -⟩ | ⟨hr, -⟩
    · exact ⟨i, decode_encode i⟩
    · omega
    · omega
  · rcases decode_cases w with ⟨i, rfl⟩ | ⟨-, h⟩ | ⟨hr, -⟩
    · have := encode_bounds i
      omega
    · exact h
    · omega

/-- Settles O1: seven of the words are the encodings of the commands; of the other four, two are an OP that is reserved and two have a
reserved bit set. -/
theorem decodeWrittenOutWords : Obligations.DecodeWrittenOutWords :=
  ⟨decode_encode .keyexp, decode_encode .encEcb, decode_encode .decEcb, decode_encode .encCbc, decode_encode .decCbc,
    decode_encode .encBlk, decode_encode .decBlk, decode_reservedOp 0 (by decide), decode_reservedOp 8 (by decide),
    decode_reservedBits (by decide), decode_reservedBits (by decide)⟩

/-- Settles O3: the encodings are read off the OP table, and the decoder is computed on each of them. -/
theorem decodeOfEncode : Obligations.DecodeOfEncode :=
  ⟨⟨rfl, rfl, rfl, rfl, rfl, rfl, rfl⟩, fun i => ⟨rfl, decode_encode i⟩⟩

/-! ### STATUS -/

/-- The low byte of STATUS as 30_encoding.md R86 lays it out: ERR, a reserved zero, WERR, DONE, BUSY. -/
def statusByte (s : State) : BitVec 8 :=
  s.err ++ 0#1 ++ BitVec.ofBool s.werr ++ BitVec.ofBool s.done ++ BitVec.ofBool s.busy

theorem statusWord_eq_statusByte (s : State) : statusWord s = (statusByte s).setWidth 32 := by
  unfold statusWord statusByte
  generalize s.err = e, s.werr = w, s.done = d, s.busy = b
  revert e w d b
  decide

theorem statusWord_toNat_lt (s : State) : (statusWord s).toNat < 256 := by
  rw [statusWord_eq_statusByte, BitVec.toNat_setWidth_of_le (by decide)]
  exact (statusByte s).isLt

theorem statusWord_getLsbD_zero (s : State) : (statusWord s).getLsbD 0 = s.busy := by
  simp [statusWord]

theorem statusWord_getLsbD_two (s : State) : (statusWord s).getLsbD 2 = s.werr := by
  simp [statusWord]

theorem statusWord_getLsbD_three (s : State) : (statusWord s).getLsbD 3 = false := by
  simp [statusWord]

theorem statusWord_err (s : State) : (statusWord s).extractLsb' 4 4 = s.err := by
  rw [statusWord_eq_statusByte, statusByte]
  generalize s.err = e, s.werr = w, s.done = d, s.busy = b
  revert e w d b
  decide

/-- Settles O6: STATUS field by field, and the write of STATUS that the bus acknowledges. -/
theorem statusFormat : Obligations.StatusFormat := fun s =>
  ⟨statusWord_getLsbD_zero s, statusWord_getLsbD_one s, statusWord_getLsbD_two s, statusWord_getLsbD_three s, statusWord_err s,
    statusWord_toNat_lt s, fun v => busWrite_status v s⟩

/-- What the poll of RUN waits for (30_encoding.md R93). -/
theorem pollEnds_completed {s : State} {code : BitVec 4} (h : CompletedWith code s) :
    pollEnds (.data (statusWord s)) 0x3 0x2 = true := by
  rw [pollEnds, statusWord_eq_statusByte, statusByte, h.busy, h.done]
  generalize s.err = e, s.werr = w
  revert e w
  decide

/-! ### RUN -/

/-- Every command completes and writes nothing outside its frame (44_commands.md R211, R212). -/
theorem exec_completes (i : Instr) (s : State) : ∃ t code, exec i s = .next t ∧ CompletedWith code t ∧ CoreFrame s t := by
  rcases exec_cases i s with ⟨_, -, hx⟩ | ⟨_, _, -, -, -, hx⟩ | ⟨_, _, _, -, -, -, -, hx⟩ <;>
    exact ⟨_, _, hx, completedWith_complete _ _, (exec_effect hx).coreFrame⟩

/-- With no turns listed the default agent moves, and no turn is used up (log entry 5). -/
theorem step_of_no_turns {s : State} (h : s.turns = []) : step s = agentStep (defaultTurn s) s := by
  have hs : { s with turns := s.turns.tail } = s := by rw [h, List.tail_nil, ← h]
  rw [step, hs, nextTurn, h]

theorem step_idle {s : State} (hturns : s.turns = []) (hidle : s.busy = false) : step s = .next (hostStep s) := by
  rw [step_of_no_turns hturns, defaultTurn, if_neg (by simp [hidle]), agentStep]

theorem step_inFlight {s : State} {i : Instr} (hturns : s.turns = []) (hbusy : s.busy = true) (hop : s.pendOp = encode i) :
    step s = exec i s := by
  rw [step_of_no_turns hturns, defaultTurn, if_pos hbusy, agentStep, coreStep, if_pos hbusy, hop, decode_encode]

theorem hostStep_issue {s : State} {v : Word} {rest : List HostOp} (hidle : s.busy = false)
    (hp : s.prog = lineW addrCmd v :: rest) :
    hostStep s = { issue v s with prog := rest, trace := .okay :: s.trace } := by
  have hwrite := busWrite_idle (s := { s with prog := rest }) v hidle (target_cmd _)
  rw [hostStep, hp]
  exact congrArg (fun p => observe p.1 p.2) hwrite

theorem hostStep_poll_completed {s : State} {code : BitVec 4} {rest : List HostOp} (h : CompletedWith code s)
    (hp : s.prog = .poll addrStatus 0x3 0x2 :: rest) :
    hostStep s = { s with prog := rest, trace := .data (statusWord s) :: s.trace } := by
  have hread : busRead addrStatus 15 { s with prog := rest } = (.data (statusWord s), { s with prog := rest }) :=
    busRead_idle (s := { s with prog := rest }) h.busy (target_status _)
  simp only [hostStep, hp, runHostOp, hread, pollEnds_completed h, if_true, observe]

theorem run_succ {M : Host.Core} {s t : M.State} (k : Nat) (h : M.step s = .next t) : M.run (k + 1) s = M.run k t := by
  rw [Host.Core.run, h]

/-- What the first line of RUN leaves: the command in flight, and its poll next. -/
def runIssued (i : Instr) (rest : List HostOp) (s : State) : State :=
  { issue (encode i) s with prog := .poll addrStatus 0x3 0x2 :: rest, trace := .okay :: s.trace }

/-- Settles O60: the host issues, the core runs the word in PEND_OP, and the poll finds the command completed. -/
theorem runMacroRunsCommand : Obligations.RunMacroRunsCommand := by
  intro s i rest hidle hturns hprog
  obtain ⟨t, code, hexec, hdone, hframe⟩ := exec_completes i (runIssued i rest s)
  have hissue : step s = .next (runIssued i rest s) :=
    (step_idle hturns hidle).trans (congrArg _ (hostStep_issue hidle hprog))
  have hexecute : step (runIssued i rest s) = .next t :=
    (step_inFlight (s := runIssued i rest s) hturns rfl rfl).trans hexec
  have hpoll : step t = .next { t with prog := rest, trace := .data (statusWord t) :: t.trace } :=
    (step_idle (hframe.turns.trans hturns) hdone.busy).trans (congrArg _ (hostStep_poll_completed hdone hframe.prog))
  exact ⟨t, hexec, (run_succ 2 hissue).trans ((run_succ 1 hexecute).trans (run_succ 0 hpoll))⟩

end Sys2Proof.Machine
end

section
/-! PROOF. The datapath (40_datapath.md): the conversions (R100, R101), xtime and the constant multipliers (R102 to R107), the SubBytes
ROMs (R108 to R112), the row and column transforms (R113 to R116), and every stage undone by its inverse (R121). -/

namespace Sys2Proof.Machine

/-! ### Bytes of words and of States -/

/-- Byte i of a word packed from the first four values of a function is its value at i. -/
theorem byteOf_pack (f : Nat → Byte) {i : Nat} (hi : i < 4) : byteOf (pack (f 0) (f 1) (f 2) (f 3)) i = f i := by
  interval_cases i
  · exact byteOf_pack_0 ..
  · exact byteOf_pack_1 ..
  · exact byteOf_pack_2 ..
  · exact byteOf_pack_3 ..

theorem exists_eq_pack (w : Word) : ∃ b0 b1 b2 b3, w = pack b0 b1 b2 b3 := ⟨_, _, _, _, (pack_byteOf w).symm⟩

theorem AesState.mk_col (S : AesState) : ⟨S.col 0, S.col 1, S.col 2, S.col 3⟩ = S := rfl

/-- Two States with the same byte in every column and row are equal. -/
theorem AesState.ext_byteOf {S T : AesState} (h : ∀ c i, c < 4 → i < 4 → byteOf (S.col c) i = byteOf (T.col c) i) : S = T := by
  have hcol : ∀ c, c < 4 → S.col c = T.col c := fun c hc =>
    word_ext (h c 0 hc (by decide)) (h c 1 hc (by decide)) (h c 2 hc (by decide)) (h c 3 hc (by decide))
  rw [← mk_col S, ← mk_col T, hcol 0 (by decide), hcol 1 (by decide), hcol 2 (by decide), hcol 3 (by decide)]

/-! ### Conversions -/

theorem byteOf_blockToState_col (b : Bytes) {c r : Nat} (hc : c < 4) (hr : r < 4) :
    byteOf ((blockToState b).col c) r = b.getD (4 * c + r) 0 := by
  have hcol : (blockToState b).col c = pack (b.getD (4 * c) 0) (b.getD (4 * c + 1) 0) (b.getD (4 * c + 2) 0) (b.getD (4 * c + 3) 0) := by
    interval_cases c <;> rfl
  rw [hcol]
  exact byteOf_pack (fun r => b.getD (4 * c + r) 0) hr

theorem stateToBlock_getD (S : AesState) {c r : Nat} (hc : c < 4) (hr : r < 4) :
    (stateToBlock S).getD (4 * c + r) 0 = byteOf (S.col c) r := by
  interval_cases c <;> interval_cases r <;> rfl

theorem stateToBlock_blockToState {b : Bytes} (hb : b.length = 16) : stateToBlock (blockToState b) = b := by
  apply List.ext_getElem (by rw [stateToBlock_length, hb])
  intro k hk hk'
  have hc : k / 4 < 4 := by omega
  have hr : k % 4 < 4 := by omega
  rw [← List.getD_eq_getElem _ 0 hk, ← List.getD_eq_getElem _ 0 hk', ← Nat.div_add_mod k 4, stateToBlock_getD _ hc hr,
    byteOf_blockToState_col b hc hr]

theorem blockToState_stateToBlock (S : AesState) : blockToState (stateToBlock S) = S :=
  AesState.ext_byteOf fun _ _ hc hr => (byteOf_blockToState_col _ hc hr).trans (stateToBlock_getD S hc hr)

/-- Settles O32: both conversions move bytes by the index 4c + r, so they undo each other byte by byte. -/
theorem conversionsAreInverse : Obligations.ConversionsAreInverse :=
  ⟨fun b _ _ => byteOf_blockToState_col b, fun S _ _ => stateToBlock_getD S, fun _ => stateToBlock_blockToState,
    fun S => ⟨blockToState_stateToBlock S, stateToBlock_length S⟩⟩

/-! ### Row transforms -/

theorem byteOf_shiftRows_col (S : AesState) {c i : Nat} (hc : c < 4) (hi : i < 4) :
    byteOf ((shiftRows S).col c) i = byteOf (S.col ((c + i) % 4)) i := by
  have hcol : (shiftRows S).col c =
      rowsOf (S.col ((c + 0) % 4)) (S.col ((c + 1) % 4)) (S.col ((c + 2) % 4)) (S.col ((c + 3) % 4)) := by
    interval_cases c <;> rfl
  rw [hcol]
  exact byteOf_pack (fun i => byteOf (S.col ((c + i) % 4)) i) hi

theorem byteOf_invShiftRows_col (S : AesState) {c i : Nat} (hc : c < 4) (hi : i < 4) :
    byteOf ((invShiftRows S).col c) i = byteOf (S.col ((c + 4 - i) % 4)) i := by
  have hcol : (invShiftRows S).col c =
      rowsOf (S.col ((c + 4 - 0) % 4)) (S.col ((c + 4 - 1) % 4)) (S.col ((c + 4 - 2) % 4)) (S.col ((c + 4 - 3) % 4)) := by
    interval_cases c <;> rfl
  rw [hcol]
  exact byteOf_pack (fun i => byteOf (S.col ((c + 4 - i) % 4)) i) hi

/-- Settles O33: every byte stays in its row and comes from the column its row shifts it by. -/
theorem shiftRowsMovesColumns : Obligations.ShiftRowsMovesColumns := fun S _ _ hc hi =>
  ⟨byteOf_shiftRows_col S hc hi, byteOf_invShiftRows_col S hc hi⟩

theorem invShiftRows_shiftRows (S : AesState) : invShiftRows (shiftRows S) = S := by
  refine AesState.ext_byteOf fun c i hc hi => ?_
  rw [byteOf_invShiftRows_col _ hc hi, byteOf_shiftRows_col S (Nat.mod_lt _ (by decide)) hi,
    show ((c + 4 - i) % 4 + i) % 4 = c by omega]

theorem shiftRows_invShiftRows (S : AesState) : shiftRows (invShiftRows S) = S := by
  refine AesState.ext_byteOf fun c i hc hi => ?_
  rw [byteOf_shiftRows_col _ hc hi, byteOf_invShiftRows_col S (Nat.mod_lt _ (by decide)) hi,
    show ((c + i) % 4 + 4 - i) % 4 = c by omega]

/-! ### GF(2^8) arithmetic

Addition is XOR, and every byte is its own additive inverse (40_datapath.md R107): with `BitVec.xor_assoc` and `BitVec.xor_comm` the next
two lemmas let `simp` sort a sum and strike out what stands in it twice. -/

theorem xor_left_comm {n : Nat} (a b c : BitVec n) : a ^^^ (b ^^^ c) = b ^^^ (a ^^^ c) := by ac_rfl

theorem xor_cancel_left {n : Nat} (a b : BitVec n) : a ^^^ (a ^^^ b) = b := by
  rw [← BitVec.xor_assoc, BitVec.xor_self, BitVec.zero_xor]

/-- The second form of R102: the eight bits shifted, and the reduction byte where the high bit was 1. -/
theorem xtime_eq (b : Byte) : xtime b = b <<< 1 ^^^ if b.getLsbD 7 then 0x1B else 0 := by
  have hshift : (b.setWidth 9 <<< 1).setWidth 8 = b <<< 1 := by ext i hi; simp
  unfold xtime
  split <;> simp [hshift]

/-- The shift is linear, and the carries of two bytes with bit 7 set cancel. -/
theorem xtime_xor (a b : Byte) : xtime (a ^^^ b) = xtime a ^^^ xtime b := by
  simp only [xtime_eq, BitVec.shiftLeft_xor_distrib, BitVec.getLsbD_xor]
  cases a.getLsbD 7 <;> cases b.getLsbD 7 <;>
    simp [BitVec.xor_assoc, BitVec.xor_comm, xor_left_comm]

/-- The bit shifted out of a byte comes back as bit 0, the low bit of the reduction byte. -/
theorem xtime_getLsbD_zero (b : Byte) : (xtime b).getLsbD 0 = b.getLsbD 7 := by
  rw [xtime_eq]
  cases b.getLsbD 7 <;> simp

theorem xtime_injective : Function.Injective xtime := by
  intro a b h
  have h7 : a.getLsbD 7 = b.getLsbD 7 := by rw [← xtime_getLsbD_zero a, h, xtime_getLsbD_zero b]
  have hshift : a <<< 1 = b <<< 1 := by rwa [xtime_eq, xtime_eq, h7, BitVec.xor_left_inj] at h
  ext i hi
  by_cases hi7 : i = 7
  · subst hi7
    exact h7
  · have hi' : i + 1 < 8 := by omega
    simpa [hi'] using congrArg (·.getLsbD (i + 1)) hshift

/-- Settles O30: xtime is injective on the finite type of bytes, so it is a bijection and 0x80 is the one byte it takes to 0x1B. -/
theorem xtimeLaws : Obligations.XtimeLaws :=
  ⟨fun _ => rfl, xtime_eq, fun a b => (xtime_xor a b).symm, xtime_injective.bijective_of_finite,
    fun _ => xtime_injective.eq_iff' rfl, rfl, rfl, rfl, rfl⟩

/-! ### SubBytes -/

theorem invSbox_sbox : ∀ b : Byte, invSbox (sbox b) = b := by decide

theorem sbox_invSbox : ∀ b : Byte, sbox (invSbox b) = b := by decide

/-- Settles O31: the inverse laws by the 256 entries of each ROM. -/
theorem sboxRomsAreInverse : Obligations.SboxRomsAreInverse :=
  ⟨invSbox_sbox, sbox_invSbox, rfl, rfl, rfl, rfl, rfl, rfl, rfl, rfl⟩

theorem subWord_pack (b0 b1 b2 b3 : Byte) : subWord (pack b0 b1 b2 b3) = pack (sbox b0) (sbox b1) (sbox b2) (sbox b3) := by
  simp only [subWord, byteOf_pack_0, byteOf_pack_1, byteOf_pack_2, byteOf_pack_3]

theorem invSubWord_pack (b0 b1 b2 b3 : Byte) :
    invSubWord (pack b0 b1 b2 b3) = pack (invSbox b0) (invSbox b1) (invSbox b2) (invSbox b3) := by
  simp only [invSubWord, byteOf_pack_0, byteOf_pack_1, byteOf_pack_2, byteOf_pack_3]

theorem invSubWord_subWord (w : Word) : invSubWord (subWord w) = w := by
  obtain ⟨b0, b1, b2, b3, rfl⟩ := exists_eq_pack w
  simp only [subWord_pack, invSubWord_pack, invSbox_sbox]

theorem subWord_invSubWord (w : Word) : subWord (invSubWord w) = w := by
  obtain ⟨b0, b1, b2, b3, rfl⟩ := exists_eq_pack w
  simp only [subWord_pack, invSubWord_pack, sbox_invSbox]

theorem invSubBytes_subBytes (S : AesState) : invSubBytes (subBytes S) = S := by
  simp only [subBytes, invSubBytes, invSubWord_subWord]

theorem subBytes_invSubBytes (S : AesState) : subBytes (invSubBytes S) = S := by
  simp only [subBytes, invSubBytes, subWord_invSubWord]

/-! ### MixColumns

MixColumn multiplies a column by c = {03}x³+{01}x²+{01}x+{02} modulo x⁴+1. There c² = {04}x²+{05} and c⁴ = {01}, so c³ is the inverse
of c, and it is the polynomial of InvMixColumn. The lemmas below are these three products, byte by byte. -/

/-- One output byte of MixColumn: {02}, {03}, {01}, {01} times the bytes j, j+1, j+2, j+3 (40_datapath.md R115). -/
def mixByte (b0 b1 b2 b3 : Byte) : Byte := xtime b0 ^^^ (b1 ^^^ xtime b1) ^^^ b2 ^^^ b3

/-- One output byte of MixColumn applied twice: {05} and {04} times the bytes j and j+2. -/
def mixTwiceByte (b0 b2 : Byte) : Byte := b0 ^^^ xtime (xtime (b0 ^^^ b2))

theorem mixByte_self (b : Byte) : mixByte b b b b = b := by
  simp only [mixByte, BitVec.xor_comm, xor_left_comm, BitVec.xor_self, BitVec.xor_zero]

/-- c · c = c². -/
theorem mixByte_mixByte (b0 b1 b2 b3 : Byte) :
    mixByte (mixByte b0 b1 b2 b3) (mixByte b1 b2 b3 b0) (mixByte b2 b3 b0 b1) (mixByte b3 b0 b1 b2) = mixTwiceByte b0 b2 := by
  simp only [mixByte, mixTwiceByte, xtime_xor, BitVec.xor_assoc, BitVec.xor_comm, xor_left_comm, xor_cancel_left]

/-- c² · c² = {01}: the byte added, {04} times the sum of the two, is the same both times. -/
theorem mixTwiceByte_mixTwiceByte (b0 b2 : Byte) : mixTwiceByte (mixTwiceByte b0 b2) (mixTwiceByte b2 b0) = b0 := by
  simp only [mixTwiceByte, xtime_xor, BitVec.xor_comm, xor_left_comm, BitVec.xor_self, BitVec.xor_zero]

/-- c · c² is the polynomial {0b}x³+{0d}x²+{09}x+{0e} of InvMixColumn. -/
theorem mixByte_mixTwiceByte (b0 b1 b2 b3 : Byte) :
    mixByte (mixTwiceByte b0 b2) (mixTwiceByte b1 b3) (mixTwiceByte b2 b0) (mixTwiceByte b3 b1) = invMixByte b0 b1 b2 b3 := by
  simp only [mixByte, mixTwiceByte, invMixByte, multE, multB, multD, mult9, xtime_xor, BitVec.xor_assoc, BitVec.xor_comm,
    xor_left_comm, xor_cancel_left]

theorem mixColumn_pack (b0 b1 b2 b3 : Byte) : mixColumn (pack b0 b1 b2 b3) =
    pack (mixByte b0 b1 b2 b3) (mixByte b1 b2 b3 b0) (mixByte b2 b3 b0 b1) (mixByte b3 b0 b1 b2) := by
  simp only [mixColumn, mixByte, byteOf_pack_0, byteOf_pack_1, byteOf_pack_2, byteOf_pack_3, xtime_xor, BitVec.xor_assoc,
    BitVec.xor_comm, xor_left_comm, xor_cancel_left]

theorem invMixColumn_pack (b0 b1 b2 b3 : Byte) : invMixColumn (pack b0 b1 b2 b3) =
    pack (invMixByte b0 b1 b2 b3) (invMixByte b1 b2 b3 b0) (invMixByte b2 b3 b0 b1) (invMixByte b3 b0 b1 b2) := by
  simp only [invMixColumn, byteOf_pack_0, byteOf_pack_1, byteOf_pack_2, byteOf_pack_3]

theorem byteOf_mixColumn (w : Word) {i : Nat} (hi : i < 4) : byteOf (mixColumn w) i =
    mixByte (byteOf w i) (byteOf w ((i + 1) % 4)) (byteOf w ((i + 2) % 4)) (byteOf w ((i + 3) % 4)) := by
  rw [← congrArg mixColumn (pack_byteOf w), mixColumn_pack]
  exact byteOf_pack (fun i => mixByte (byteOf w i) (byteOf w ((i + 1) % 4)) (byteOf w ((i + 2) % 4)) (byteOf w ((i + 3) % 4))) hi

theorem mixColumn_four_times (w : Word) : mixColumn (mixColumn (mixColumn (mixColumn w))) = w := by
  obtain ⟨b0, b1, b2, b3, rfl⟩ := exists_eq_pack w
  simp only [mixColumn_pack, mixByte_mixByte, mixTwiceByte_mixTwiceByte]

theorem invMixColumn_eq_mixColumn_three_times (w : Word) : invMixColumn w = mixColumn (mixColumn (mixColumn w)) := by
  obtain ⟨b0, b1, b2, b3, rfl⟩ := exists_eq_pack w
  simp only [mixColumn_pack, invMixColumn_pack, mixByte_mixByte, mixByte_mixTwiceByte]

theorem invMixColumn_mixColumn (w : Word) : invMixColumn (mixColumn w) = w := by
  rw [invMixColumn_eq_mixColumn_three_times, mixColumn_four_times]

theorem mixColumn_invMixColumn (w : Word) : mixColumn (invMixColumn w) = w := by
  rw [invMixColumn_eq_mixColumn_three_times, mixColumn_four_times]

theorem mixColumn_pack_self (b : Byte) : mixColumn (pack b b b b) = pack b b b b := by
  rw [mixColumn_pack, mixByte_self]

theorem invMixColumn_pack_self (b : Byte) : invMixColumn (pack b b b b) = pack b b b b := by
  rw [← congrArg invMixColumn (mixColumn_pack_self b), invMixColumn_mixColumn]

/-- Settles O34: the byte form of the product; a fixed point of MixColumn is one of its inverse. -/
theorem mixColumnIsPolynomialProduct : Obligations.MixColumnIsPolynomialProduct :=
  ⟨fun w _ => byteOf_mixColumn w, fun b => ⟨mixColumn_pack_self b, invMixColumn_pack_self b⟩, by decide, by decide⟩

theorem invMixColumns_mixColumns (S : AesState) : invMixColumns (mixColumns S) = S := by
  simp only [mixColumns, invMixColumns, invMixColumn_mixColumn]

theorem mixColumns_invMixColumns (S : AesState) : mixColumns (invMixColumns S) = S := by
  simp only [mixColumns, invMixColumns, mixColumn_invMixColumn]

/-! ### Every stage is undone -/

theorem addRoundKey_addRoundKey (S : AesState) (w : ExpKey) (r : Nat) : addRoundKey (addRoundKey S w r) w r = S := by
  simp only [addRoundKey, BitVec.xor_assoc, BitVec.xor_self, BitVec.xor_zero]

/-- Settles O35: SubBytes by its ROMs, ShiftRows by where it moves bytes, MixColumns by c⁴ = {01}, AddRoundKey by XOR. -/
theorem stageInverses : Obligations.StageInverses :=
  ⟨fun S => ⟨invSubBytes_subBytes S, subBytes_invSubBytes S⟩, fun S => ⟨invShiftRows_shiftRows S, shiftRows_invShiftRows S⟩,
    fun S => ⟨invMixColumns_mixColumns S, mixColumns_invMixColumns S⟩, addRoundKey_addRoundKey⟩

end Sys2Proof.Machine
end

section
/-! PROOF. The words of the key schedule (41_key_schedule.md): RotWord (R142) and the round constants (R143, R144). -/

namespace Sys2Proof.Machine

/-- The right shift brings the top byte down into the low eight bits; the left shift moves the other three bytes up above them. -/
theorem rotWord_pack (b0 b1 b2 b3 : Byte) : rotWord (pack b0 b1 b2 b3) = pack b1 b2 b3 b0 := by
  apply BitVec.eq_of_getLsbD_eq
  intro i hi
  simp only [rotWord, pack, BitVec.getLsbD_or, BitVec.getLsbD_shiftLeft, BitVec.getLsbD_ushiftRight, BitVec.getLsbD_append]
  by_cases hlow : i < 8 <;> grind

/-- The low 24 bits are those of the three zero bytes; the high eight are the byte's. -/
theorem pack_zeros (b : Byte) : pack b 0 0 0 = b.setWidth 32 <<< 24 := by
  apply BitVec.eq_of_getLsbD_eq
  intro i hi
  simp only [pack, BitVec.getLsbD_append, BitVec.getLsbD_shiftLeft, BitVec.getLsbD_setWidth]
  by_cases hlow : i < 24 <;> grind

theorem rotWord_eq_pack (w : Word) : rotWord w = pack (byteOf w 1) (byteOf w 2) (byteOf w 3) (byteOf w 0) := by
  rw [← rotWord_pack, pack_byteOf]

theorem rotWord_four_times (w : Word) : rotWord (rotWord (rotWord (rotWord w))) = w := by
  obtain ⟨b0, b1, b2, b3, rfl⟩ := exists_eq_pack w
  simp only [rotWord_pack]

/-- Settles O37: on a packed word RotWord turns the four bytes one place, and the zero bytes of a round constant are the shift's. -/
theorem rotWordAndRoundConstants : Obligations.RotWordAndRoundConstants :=
  ⟨rotWord_eq_pack, rotWord_four_times, fun b => rotWord_pack b b b b, rfl, fun j => ⟨pack_zeros (rc j), rfl⟩, rfl⟩

end Sys2Proof.Machine
end

section
/-! PROOF. The single-block cipher (42_block_cipher.md): InvSubBytes commutes with InvShiftRows (R162), and each cipher undoes the other
(R164). The inverse cipher meets the stages in another grouping than the forward one, so a round is undone between the row shift and the
S-box of its neighbours: the lemmas below carry that pair of stages through the rounds. -/

namespace Sys2Proof.Machine

/-! ### The byte-wise stage and the row stage -/

theorem invSubWord_rowsOf (w0 w1 w2 w3 : Word) :
    invSubWord (rowsOf w0 w1 w2 w3) = rowsOf (invSubWord w0) (invSubWord w1) (invSubWord w2) (invSubWord w3) := by
  simp only [rowsOf, invSubWord, byteOf_pack_0, byteOf_pack_1, byteOf_pack_2, byteOf_pack_3]

theorem invShiftRows_invSubBytes (S : AesState) : invShiftRows (invSubBytes S) = invSubBytes (invShiftRows S) := by
  simp only [invShiftRows, invSubBytes, invSubWord_rowsOf]

/-- Settles O36: InvSubBytes acts on each byte alone, wherever InvShiftRows moves it. -/
theorem inverseStagesCommute : Obligations.InverseStagesCommute := invShiftRows_invSubBytes

theorem invShiftRows_invSubBytes_shiftRows_subBytes (S : AesState) :
    invShiftRows (invSubBytes (shiftRows (subBytes S))) = S := by
  rw [invShiftRows_invSubBytes, invShiftRows_shiftRows, invSubBytes_subBytes]

theorem shiftRows_subBytes_invShiftRows_invSubBytes (S : AesState) :
    shiftRows (subBytes (invShiftRows (invSubBytes S))) = S := by
  rw [invShiftRows_invSubBytes, subBytes_invSubBytes, shiftRows_invShiftRows]

/-! ### Rounds -/

theorem invCipherRound_cipherRound (w : ExpKey) (r : Nat) (S : AesState) :
    invCipherRound w r (shiftRows (subBytes (cipherRound w r S))) = shiftRows (subBytes S) := by
  rw [invCipherRound, invShiftRows_shiftRows, invSubBytes_subBytes, cipherRound, addRoundKey_addRoundKey, invMixColumns_mixColumns]

theorem cipherRound_invCipherRound (w : ExpKey) (r : Nat) (S : AesState) :
    cipherRound w r (invShiftRows (invSubBytes (invCipherRound w r S))) = invShiftRows (invSubBytes S) := by
  rw [cipherRound, shiftRows_subBytes_invShiftRows_invSubBytes, invCipherRound, mixColumns_invMixColumns, addRoundKey_addRoundKey,
    invShiftRows_invSubBytes]

/-- The last forward round is the first one undone. -/
theorem invCipherRounds_cipherRounds (w : ExpKey) (n : Nat) (S : AesState) :
    invCipherRounds w n (shiftRows (subBytes (cipherRounds w n S))) = shiftRows (subBytes S) := by
  induction n with
  | zero => rfl
  | succ n ih => rw [cipherRounds, invCipherRounds, invCipherRound_cipherRound, ih]

/-- The last inverse round is the first one undone. -/
theorem cipherRounds_invCipherRounds (w : ExpKey) (n : Nat) (S : AesState) :
    cipherRounds w n (invShiftRows (invSubBytes (invCipherRounds w n S))) = invShiftRows (invSubBytes S) := by
  induction n generalizing S with
  | zero => rfl
  | succ n ih => rw [invCipherRounds, cipherRounds, ih, cipherRound_invCipherRound]

/-! ### The ciphers -/

theorem invCipher_cipher (S : AesState) (w : ExpKey) (nr : Nat) : invCipher (cipher S w nr) w nr = S := by
  rw [invCipher, cipher, addRoundKey_addRoundKey, invCipherRounds_cipherRounds, invShiftRows_invSubBytes_shiftRows_subBytes,
    addRoundKey_addRoundKey]

theorem cipher_invCipher (S : AesState) (w : ExpKey) (nr : Nat) : cipher (invCipher S w nr) w nr = S := by
  rw [cipher, invCipher, addRoundKey_addRoundKey, cipherRounds_invCipherRounds, shiftRows_subBytes_invShiftRows_invSubBytes,
    addRoundKey_addRoundKey]

/-- Settles O39: by induction on the middle rounds, each undone by the inverse round of the same round key. -/
theorem cipherAndInverseCancel : Obligations.CipherAndInverseCancel := fun S w nr => ⟨invCipher_cipher S w nr, cipher_invCipher S w nr⟩

end Sys2Proof.Machine
end

section
/-! PROOF. Padding, ECB and CBC (43_modes_padding.md): what Pad and Unpad do (R180, R181, R185), each mode block by block (R183, R184,
R186 to R188), and the round trips (R190). -/

namespace Sys2Proof.Machine

/-! ### Padding -/

theorem padLength_le (n : Nat) : padLength n ≤ 16 := Nat.sub_le _ _

theorem padLength_pos (n : Nat) : 0 < padLength n := by unfold padLength; omega

theorem add_padLength (n : Nat) : n + padLength n = 16 * (n / 16 + 1) := by unfold padLength; omega

theorem pad_eq_paddedMessage (p : Bytes) : pad p = .ok (paddedMessage p) := pad_ok p

theorem paddedMessage_length (p : Bytes) : (paddedMessage p).length = 16 * (p.length / 16 + 1) := by
  rw [paddedMessage, List.length_append, List.length_replicate, add_padLength]

theorem paddedMessage_length_div (p : Bytes) : (paddedMessage p).length / 16 = p.length / 16 + 1 := by
  rw [paddedMessage_length, Nat.mul_div_cancel_left _ (by decide)]

/-- Settles O41: the guard of Pad is never met, and n bytes take |p| to the next multiple of 16. -/
theorem padAppendsItsLength : Obligations.PadAppendsItsLength := fun p =>
  ⟨padLength p.length, padLength_pos _, padLength_le _, rfl, pad_ok p, paddedMessage_length p⟩

/-- Settles O19: a pad length is at most 16, so Pad always answers; and no check answers PaddingOverflow, so ERR gets no code 3. -/
theorem paddingOverflowNeverReported : Obligations.PaddingOverflowNeverReported := by
  refine ⟨rfl, fun _ => rfl, fun p => ⟨padLength_le _, _, pad_ok p⟩, fun i s t ht => ?_⟩
  rcases exec_cases i s with ⟨e, hc, hx⟩ | ⟨_, _, -, -, -, hx⟩ | ⟨_, _, _, -, -, -, -, hx⟩ <;> cases hx.symm.trans ht
  · rw [complete_err]
    rcases errCode_of_check hc with h | h | h | h <;> rw [h] <;> decide
  · simp
  · simp

/-! ### Unpadding -/

/-- Unpad keeps all but as many bytes as the last one says; what is more than the length counts as the length. -/
theorem unpad_of_getLast? {m : Bytes} {n : Byte} (h : m.getLast? = some n) : unpad m = m.take (m.length - n.toNat) := by
  simp only [unpad, h]
  congr 1
  omega

theorem unpad_append {p t : Bytes} {n : Byte} (h : t.getLast? = some n) (hn : n.toNat = t.length) : unpad (p ++ t) = p := by
  rw [unpad_of_getLast? (by rw [List.getLast?_append, h]; rfl), List.length_append, hn, Nat.add_sub_cancel, List.take_left]

/-- Settles O42: of a sequence whose last byte is n, Unpad is the first |m| − n bytes, so it reads no other byte. -/
theorem unpadTrustsLastByte : Obligations.UnpadTrustsLastByte := by
  refine ⟨fun _ _ _ => unpad_append, fun m h => ?_, fun m n h hn => ?_⟩
  · rw [unpad_of_getLast? h]
    exact List.take_length
  · rw [unpad_of_getLast? h, Nat.sub_eq_zero_of_le hn, List.take_zero]

/-- Unpad undoes Pad (43_modes_padding.md R190). -/
theorem unpad_paddedMessage (p : Bytes) : unpad (paddedMessage p) = p := by
  refine unpad_append (n := BitVec.ofNat 8 (padLength p.length)) ?_ ?_
  · rw [List.getLast?_replicate, if_neg (padLength_pos _).ne']
  · rw [List.length_replicate, BitVec.toNat_ofNat, Nat.mod_eq_of_lt (padLength_lt _)]

/-! ### Blocks -/

theorem blocks_eq_map_blockOf (m : Bytes) : blocks m = (List.range (m.length / 16)).map (blockOf m) := rfl

theorem blocks_nil : blocks [] = [] := by simp [blocks]

theorem blocks_getD (m : Bytes) {i : Nat} (hi : i < m.length / 16) : (blocks m).getD i [] = blockOf m i := by
  simp [blocks_eq_map_blockOf, hi]

theorem blockOf_append_zero {b : Bytes} (hb : b.length = 16) (m : Bytes) : blockOf (b ++ m) 0 = b := by
  rw [blockOf, Nat.mul_zero, List.drop_zero, ← hb, List.take_left]

theorem blockOf_append_succ {b : Bytes} (hb : b.length = 16) (m : Bytes) (i : Nat) : blockOf (b ++ m) (i + 1) = blockOf m i := by
  rw [blockOf, Nat.mul_succ, Nat.add_comm, ← List.drop_drop, ← hb, List.drop_left, hb, blockOf]

/-- A block set before a sequence is its first block. -/
theorem blocks_append {b : Bytes} (hb : b.length = 16) (m : Bytes) : blocks (b ++ m) = b :: blocks m := by
  have htail : blockOf (b ++ m) ∘ Nat.succ = blockOf m := funext (blockOf_append_succ hb m)
  rw [blocks_eq_map_blockOf, List.length_append, hb, Nat.add_div_left _ (by decide), List.range_succ_eq_map, List.map_cons,
    List.map_map, blockOf_append_zero hb, htail, ← blocks_eq_map_blockOf]

theorem blocks_flatten_of_whole {m : Bytes} (h : m.length % 16 = 0) : (blocks m).flatten = m := by
  rw [blocks_flatten, Nat.mul_div_cancel' (Nat.dvd_of_mod_eq_zero h), List.take_length]

theorem blocks_paddedMessage_flatten (p : Bytes) : (blocks (paddedMessage p)).flatten = paddedMessage p :=
  blocks_flatten_of_whole (by rw [paddedMessage_length, Nat.mul_mod_right])

/-! ### One block -/

theorem invCipherBlock_cipherBlock (w : ExpKey) (nr : Nat) {b : Bytes} (hb : b.length = 16) :
    invCipherBlock w nr (cipherBlock w nr b) = b := by
  rw [invCipherBlock, cipherBlock, blockToState_stateToBlock, invCipher_cipher, stateToBlock_blockToState hb]

/-- XOR with a sequence undoes itself as far as that sequence reaches. -/
theorem xorBytes_xorBytes {a b : Bytes} (h : a.length ≤ b.length) : xorBytes (xorBytes a b) b = a := by
  induction a generalizing b with
  | nil => rfl
  | cons x xs ih =>
    cases b with
    | nil => simp at h
    | cons y ys =>
      have hhead : x ^^^ y ^^^ y = x := by rw [BitVec.xor_assoc, BitVec.xor_self, BitVec.xor_zero]
      exact congrArg₂ List.cons hhead (ih (Nat.le_of_succ_le_succ h))

/-! ### ECB -/

theorem ecbEnc_eq (p : Bytes) (w : ExpKey) (nr : Nat) :
    ecbEnc p w nr = .ok ((blocks (paddedMessage p)).flatMap (cipherBlock w nr)) := by
  simp only [ecbEnc, pad_eq_paddedMessage]

/-- Block i of a blockwise function is the function of block i. -/
theorem blockOf_flatMap {f : Bytes → Bytes} (hf : ∀ b, (f b).length = 16) (l : List Bytes) {i : Nat} (hi : i < l.length) :
    blockOf (l.flatMap f) i = f (l.getD i []) := by
  induction l generalizing i with
  | nil => simp at hi
  | cons b bs ih =>
    rw [List.flatMap_cons]
    cases i with
    | zero => rw [blockOf_append_zero (hf b), List.getD_cons_zero]
    | succ i => rw [blockOf_append_succ (hf b), ih (Nat.lt_of_succ_lt_succ hi), List.getD_cons_succ]

theorem blockOf_blocks_flatMap {f : Bytes → Bytes} (hf : ∀ b, (f b).length = 16) (m : Bytes) {i : Nat} (hi : i < m.length / 16) :
    blockOf ((blocks m).flatMap f) i = f (blockOf m i) := by
  rw [blockOf_flatMap hf _ (by rwa [blocks_length]), blocks_getD m hi]

/-- Settles O43: both directions map one function of 16 result bytes over the blocks. -/
theorem ecbIsBlockwise : Obligations.EcbIsBlockwise := by
  refine ⟨fun p r w nr i hr hi => ?_, fun c w nr i hc hi => ?_⟩
  · cases (ecbEnc_eq p w nr).symm.trans hr
    refine ⟨_, pad_eq_paddedMessage p, ?_, blockOf_blocks_flatMap (cipherBlock_length w nr) _ ?_⟩
    · rw [flatMap_block_length _ (cipherBlock_length w nr), blocks_length, paddedMessage_length_div, paddedMessage_length]
    · rwa [paddedMessage_length_div]
  · exact ⟨ecbDecRaw_length c w nr hc, blockOf_blocks_flatMap (invCipherBlock_length w nr) c hi⟩

/-- The blocks of a ciphertext deciphered one by one give the blocks that were ciphered. -/
theorem ecbDecRaw_flatMap_cipherBlock (w : ExpKey) (nr : Nat) {l : List Bytes} (hl : ∀ b ∈ l, b.length = 16) :
    ecbDecRaw (l.flatMap (cipherBlock w nr)) w nr = l.flatten := by
  induction l with
  | nil => rw [ecbDecRaw, List.flatMap_nil, blocks_nil, List.flatMap_nil, List.flatten_nil]
  | cons b bs ih =>
    obtain ⟨hb, hbs⟩ := List.forall_mem_cons.1 hl
    rw [ecbDecRaw] at ih ⊢
    rw [List.flatMap_cons, blocks_append (cipherBlock_length w nr b), List.flatMap_cons, invCipherBlock_cipherBlock w nr hb, ih hbs,
      List.flatten_cons]

/-! ### CBC -/

theorem cbcEnc_eq (p : Bytes) (w : ExpKey) (nr : Nat) (iv : Bytes) :
    cbcEnc p w nr iv = .ok (cbcEncBlocks w nr iv (blocks (paddedMessage p))) := by
  simp only [cbcEnc, pad_eq_paddedMessage]

/-- The chaining equation of encryption, from any previous block (43_modes_padding.md R186). -/
theorem blockOf_cbcEncBlocks (w : ExpKey) (nr : Nat) (prev : Bytes) (l : List Bytes) {i : Nat} (hi : i < l.length) :
    blockOf (cbcEncBlocks w nr prev l) i = cipherBlock w nr
      (xorBytes (l.getD i []) (if i = 0 then prev else blockOf (cbcEncBlocks w nr prev l) (i - 1))) := by
  induction l generalizing prev i with
  | nil => simp at hi
  | cons b bs ih =>
    have hc := cipherBlock_length w nr (xorBytes b prev)
    rw [cbcEncBlocks]
    cases i with
    | zero => rw [blockOf_append_zero hc, List.getD_cons_zero, if_pos rfl]
    | succ i =>
      rw [blockOf_append_succ hc, ih _ (Nat.lt_of_succ_lt_succ hi), List.getD_cons_succ, if_neg i.succ_ne_zero,
        Nat.add_sub_cancel]
      cases i with
      | zero => rw [if_pos rfl, blockOf_append_zero hc]
      | succ i => rw [if_neg i.succ_ne_zero, Nat.add_sub_cancel, blockOf_append_succ hc]

/-- Settles O44: the chaining equation by induction on the blocks, where the ciphertext block just made is the next previous block. -/
theorem cbcEncryptionChains : Obligations.CbcEncryptionChains := by
  intro p r iv w nr i _ hr hi
  cases (cbcEnc_eq p w nr iv).symm.trans hr
  rw [← paddedMessage_length_div] at hi
  refine ⟨_, pad_eq_paddedMessage p, ?_, ?_⟩
  · rw [cbcEncBlocks_length, blocks_length, paddedMessage_length_div, paddedMessage_length]
  · rw [blockOf_cbcEncBlocks w nr iv _ (by rwa [blocks_length]), blocks_getD _ hi]

/-- The chaining equation of decryption, from any previous block (43_modes_padding.md R187, R188). -/
theorem blockOf_cbcDecBlocks (w : ExpKey) (nr : Nat) {prev : Bytes} (hp : prev.length = 16) {l : List Bytes}
    (hl : ∀ b ∈ l, b.length = 16) {i : Nat} (hi : i < l.length) :
    blockOf (cbcDecBlocks w nr prev l) i =
      xorBytes (invCipherBlock w nr (l.getD i [])) (if i = 0 then prev else l.getD (i - 1) []) := by
  induction l generalizing prev i with
  | nil => simp at hi
  | cons b bs ih =>
    obtain ⟨hb, hbs⟩ := List.forall_mem_cons.1 hl
    have hx : (xorBytes (invCipherBlock w nr b) prev).length = 16 := by rw [xorBytes_length, invCipherBlock_length, hp, Nat.min_self]
    rw [cbcDecBlocks]
    cases i with
    | zero => rw [blockOf_append_zero hx, List.getD_cons_zero, if_pos rfl]
    | succ i =>
      rw [blockOf_append_succ hx, ih hb hbs (Nat.lt_of_succ_lt_succ hi), List.getD_cons_succ, if_neg i.succ_ne_zero,
        Nat.add_sub_cancel]
      cases i with
      | zero => rw [if_pos rfl, List.getD_cons_zero]
      | succ i => rw [if_neg i.succ_ne_zero, Nat.add_sub_cancel, List.getD_cons_succ]

/-- Settles O45: the chaining equation by induction on the blocks, where the ciphertext block read is the next previous block. -/
theorem cbcDecryptionChains : Obligations.CbcDecryptionChains := by
  intro c iv w nr i hiv hc hi
  have hprev : (if i = 0 then iv else (blocks c).getD (i - 1) []) = if i = 0 then iv else blockOf c (i - 1) := by
    rw [blocks_getD c (by omega)]
  refine ⟨cbcDecRaw_length c w nr iv hiv hc, ?_⟩
  rw [cbcDecRaw, blockOf_cbcDecBlocks w nr hiv (fun _ => length_of_mem_blocks) (by rwa [blocks_length]), blocks_getD c hi, hprev]

/-- Decryption undoes the chaining: each XOR operand is the ciphertext block encryption made before. -/
theorem cbcDecRaw_cbcEncBlocks (w : ExpKey) (nr : Nat) {prev : Bytes} (hp : prev.length = 16) {l : List Bytes}
    (hl : ∀ b ∈ l, b.length = 16) : cbcDecRaw (cbcEncBlocks w nr prev l) w nr prev = l.flatten := by
  induction l generalizing prev with
  | nil => rw [cbcDecRaw, cbcEncBlocks, blocks_nil, cbcDecBlocks, List.flatten_nil]
  | cons b bs ih =>
    obtain ⟨hb, hbs⟩ := List.forall_mem_cons.1 hl
    have hc := cipherBlock_length w nr (xorBytes b prev)
    have hx : (xorBytes b prev).length = 16 := by rw [xorBytes_length, hb, hp, Nat.min_self]
    have htail := ih hc hbs
    rw [cbcDecRaw] at htail ⊢
    rw [cbcEncBlocks, blocks_append hc, cbcDecBlocks, invCipherBlock_cipherBlock w nr hx, xorBytes_xorBytes (by omega), htail,
      List.flatten_cons]

/-! ### The round trips -/

/-- Settles O46: the raw decryption of each mode gives the padded message back, and Unpad undoes Pad. -/
theorem roundTripLaws : Obligations.RoundTripLaws := by
  intro p iv w nr hiv
  have hblocks : ∀ b ∈ blocks (paddedMessage p), b.length = 16 := fun _ => length_of_mem_blocks
  have hlen : 16 * (blocks (paddedMessage p)).length = p.length + (16 - p.length % 16) := by
    rw [blocks_length, paddedMessage_length_div, ← add_padLength, padLength]
  refine ⟨⟨_, pad_eq_paddedMessage p, unpad_paddedMessage p⟩, ⟨_, ecbEnc_eq p w nr, ?_, ?_⟩, ⟨_, cbcEnc_eq p w nr iv, ?_, ?_⟩⟩
  · rw [flatMap_block_length _ (cipherBlock_length w nr), hlen]
  · rw [ecbDecRaw_flatMap_cipherBlock w nr hblocks, blocks_paddedMessage_flatten, unpad_paddedMessage]
  · rw [cbcEncBlocks_length, hlen]
  · rw [cbcDecRaw_cbcEncBlocks w nr hiv hblocks, blocks_paddedMessage_flatten, unpad_paddedMessage]

end Sys2Proof.Machine
end

section
/-! PROOF. The commands (44_commands.md): issue (R210), the core's step (R211), what each command completes with and its frame (R212
to R220), and that DEC_BLK undoes ENC_BLK (R219). -/

namespace Sys2Proof.Machine

/-! ### Issue -/

/-- Settles O12: CMD is a location that a command in flight keeps the host from writing; and DONE is clear while one is. -/
theorem commandIssue : Obligations.CommandIssue := by
  refine ⟨fun s v hidle => busWrite_idle v hidle (target_cmd s), fun s v hbusy => busWrite_dropped v hbusy (target_cmd s) rfl,
    fun s hinv hbusy => ?_⟩
  obtain ⟨hdone, -⟩ := hinv.busyClear hbusy
  rw [irq, hdone, Bool.and_false]

/-! ### The core's step -/

theorem coreStep_command {s : State} {i : Instr} (hbusy : s.busy = true) (hd : decode s.pendOp = .command i) :
    coreStep s = exec i s := by
  simp only [coreStep, hbusy, if_true, hd]

theorem coreStep_invalid {s : State} {why : Reject} (hbusy : s.busy = true) (hd : decode s.pendOp = .invalid why) :
    coreStep s = .next (complete 4 s) := by
  rcases coreStep_busy hbusy with ⟨i, hi, -⟩ | ⟨_, -, hx⟩
  · cases hd.symm.trans hi
  · exact hx

/-- The core's step completes whatever is in flight (44_commands.md R211). -/
theorem coreStep_completes {s : State} (hbusy : s.busy = true) : ∃ t code, coreStep s = .next t ∧ CompletedWith code t := by
  rcases coreStep_busy hbusy with ⟨i, -, hx⟩ | ⟨_, -, hx⟩
  · obtain ⟨t, code, ht, hdone, -⟩ := exec_completes i s
    exact ⟨t, code, hx.trans ht, hdone⟩
  · exact ⟨_, 4, hx, completedWith_complete 4 s⟩

theorem step_of_core_turn {s : State} (hturn : nextTurn s = .core) : step s = coreStep { s with turns := s.turns.tail } := by
  rw [step, hturn, agentStep]

theorem step_of_host_turn {s : State} (hturn : nextTurn s = .host) :
    step s = .next (hostStep { s with turns := s.turns.tail }) := by
  rw [step, hturn, agentStep]

/-- A word placed by `withFetchWord` is issued with the core's turn next (log entry 17). -/
theorem withFetchWord_eq (s : State) (w : Word) : s.withFetchWord 32 w.toNat = { issue w s with turns := .core :: s.turns } := by
  rw [State.withFetchWord, Nat.mod_eq_of_lt w.isLt, BitVec.ofNat_toNat, BitVec.setWidth_eq]

theorem step_command {s : State} {i : Instr} (hturn : nextTurn s = .core) (hbusy : s.busy = true)
    (hd : decode s.pendOp = .command i) : step s = exec i { s with turns := s.turns.tail } :=
  (step_of_core_turn hturn).trans (coreStep_command hbusy hd)

/-- Settles O50: the core's step is `exec` of the decoded word, and `withFetchWord` gives the core a word and the turn. -/
theorem stepRunsDecodedCommand : Obligations.StepRunsDecodedCommand := by
  refine ⟨fun s i => step_command, fun s w i hd => ?_⟩
  rw [withFetchWord_eq]
  exact step_command rfl rfl hd

theorem coreStep_runs (s : State) : Runs (coreStep s) := by
  cases hb : s.busy with
  | false => exact ⟨s, coreStep_idle hb⟩
  | true =>
    obtain ⟨t, _, ht, -⟩ := coreStep_completes hb
    exact ⟨t, ht⟩

/-- Settles O53, by the agent whose turn it is: the host's and reset's steps are functions, and the core's idles or completes. -/
theorem noStepStops : Obligations.NoStepStops := by
  refine ⟨fun s => ?_, fun i s => ?_⟩
  · rcases step_cases s with ⟨-, hx⟩ | ⟨-, hx⟩ | ⟨-, hx⟩ <;> rw [hx]
    · exact ⟨_, rfl⟩
    · exact coreStep_runs _
    · exact ⟨_, rfl⟩
  · obtain ⟨t, _, ht, -, -⟩ := exec_completes i s
    exact ⟨t, ht⟩

/-- Settles O20: 0 and the words from 8 on are no command, so the decoder rejects them. -/
theorem reservedWordIsInvalidCommand : Obligations.ReservedWordIsInvalidCommand := by
  intro s hturn hbusy hword
  have hinvalid : ∃ why, decode s.pendOp = .invalid why := by
    rcases decode_cases s.pendOp with ⟨i, hi⟩ | ⟨-, hd⟩ | ⟨-, hd⟩
    · have hbounds := encode_bounds i
      rw [← hi] at hbounds
      omega
    · exact ⟨_, hd⟩
    · exact ⟨_, hd⟩
  obtain ⟨why, hd⟩ := hinvalid
  have hx := (step_of_core_turn hturn).trans (coreStep_invalid hbusy hd)
  exact ⟨_, hx, completedWith_complete 4 _, ⟨rfl, rfl, fun _ _ => rfl⟩, coreFrame_complete 4 _⟩

/-! ### Every accepted command completes -/

theorem HostEffect.turns {s u : State} (h : HostEffect s u) : u.turns = s.turns := by
  cases h with
  | unchanged | dropped => rfl
  | written v t => cases t <;> rfl

theorem hostStep_turns (s : State) : (hostStep s).turns = s.turns := by
  obtain ⟨u, heff, _, _, _, _, -, hu⟩ := hostStep_effect s
  rw [hu]
  exact heff.turns

/-- On the core's turn a command in flight completes in that step. -/
theorem run_one_of_core_turn {s : State} (hturn : nextTurn s = .core) (hbusy : s.busy = true) :
    ∃ t, Host.Core.run Sys2Proof.core 1 s = .next t ∧ t.busy = false ∧ t.done = true := by
  obtain ⟨t, _, ht, hdone⟩ := coreStep_completes (s := { s with turns := s.turns.tail }) hbusy
  exact ⟨t, run_succ 0 ((step_of_core_turn hturn).trans ht), hdone.busy, hdone.done⟩

/-- Settles O54, by induction on the turns listed: a host step keeps the command in flight and uses up a turn, and the core's step
completes it. -/
theorem acceptedCommandCompletes : Obligations.AcceptedCommandCompletes := by
  intro s hbusy hreset
  generalize hturns : s.turns = turns at hreset
  induction turns generalizing s with
  | nil =>
    have hturn : nextTurn s = .core := by simp only [nextTurn, hturns, defaultTurn, hbusy, if_true]
    obtain ⟨t, hrun⟩ := run_one_of_core_turn hturn hbusy
    exact ⟨1, t, Nat.le_refl 1, hrun⟩
  | cons turn rest ih =>
    have hturn : nextTurn s = turn := by simp only [nextTurn, hturns]
    cases turn with
    | core =>
      obtain ⟨t, hrun⟩ := run_one_of_core_turn hturn hbusy
      exact ⟨1, t, Nat.le_add_left 1 _, hrun⟩
    | host =>
      have hkept : OperandsKept { s with turns := s.turns.tail } _ := hostStep_operandsKept hbusy
      have hrest : (hostStep { s with turns := s.turns.tail }).turns = rest := by rw [hostStep_turns, hturns, List.tail_cons]
      obtain ⟨k, t, hk, hrun, hdone⟩ := ih _ (hkept.busy.trans hbusy) hrest (List.not_mem_of_not_mem_cons hreset)
      exact ⟨k + 1, t, Nat.succ_le_succ hk, (run_succ k (step_of_host_turn hturn)).trans hrun, hdone⟩
    | reset => exact absurd List.mem_cons_self hreset

/-! ### Preparing a command -/

theorem check_of_nkLegal {i : Instr} {s : State} (hnk : NkLegal s) (hlen : checkLengths i s = none) :
    check (.command i) s = none := by
  rw [check, if_pos ((legalNk_iff s).2 hnk), hlen]

/-- A legal NK has an expanded key (44_commands.md R212). -/
theorem exists_keySchedule {s : State} (hnk : NkLegal s) : ∃ nr w, KeySchedule s nr w := by
  obtain ⟨nr, w, hnr, hw, hlen, -⟩ := prepare_legal (i := .keyexp) (check_of_nkLegal hnk rfl)
  exact ⟨nr, w, hnr, hw, hlen⟩

/-- An expansion depends on NK and KEY[0..NK−1] alone. -/
theorem KeySchedule.of_sameKey {s u : State} {nr : Nat} {w : ExpKey} (hk : KeySchedule s nr w) (hnk : u.nk = s.nk)
    (hkey : ∀ j : Fin 8, j.val < s.nk.toNat → u.key[j] = s.key[j]) : KeySchedule u nr w := by
  have hsame : SameOperands .keyexp { s with bufBytes := u.bufBytes } u :=
    ⟨rfl, hnk, hkey, fun h => absurd rfl h, fun h => absurd rfl h, fun h => by simp at h⟩
  exact hsame.keySchedule hk

/-- Settles O21: with a legal NK nothing is left to check, and KEYEXP is the write-back of the expansion and the completion. -/
theorem keyexpCompletes : Obligations.KeyexpCompletes := by
  intro s hnk
  obtain ⟨nr, w, hk⟩ := exists_keySchedule hnk
  have hrk := rkHolds_storeRk w s
  exact ⟨nr, w, _, hk, exec_keyexp (check_of_nkLegal hnk rfl) hk, completedWith_complete 0 _, ⟨hrk.written, hrk.above⟩, rfl,
    fun _ _ => rfl, (coreFrame_storeRk w s).trans (coreFrame_complete 0 _)⟩

/-! ### The length checks that pass (60_exceptions.md R242, R245, R247) -/

/-- BUF_BYTES is a multiple of 16, so a message below it leaves room for its padding. -/
theorem checkLengths_encrypt {i : Instr} {s : State} (hi : i = .encEcb ∨ i = .encCbc) (hlen : s.len.toNat < s.bufBytes.bytes) :
    checkLengths i s = none := by
  have hpassed : checkData s (checkEncrypt s) = none := by
    have hb := bufBytes_legal s.bufBytes
    have hguard := padLength_lt s.len.toNat
    have hpad := add_padLength s.len.toNat
    rw [checkData, if_neg (by omega), checkEncrypt, if_neg (by omega), if_neg (by omega)]
  rcases hi with rfl | rfl <;> exact hpassed

theorem checkLengths_decrypt {i : Instr} {s : State} (hi : i = .decEcb ∨ i = .decCbc) (hfits : s.len.toNat ≤ s.bufBytes.bytes)
    (hwhole : s.len.toNat % 16 = 0) (hpos : s.len.toNat ≠ 0) : checkLengths i s = none := by
  have hpassed : checkData s (checkDecrypt s) = none := by
    rw [checkData, if_neg (by omega), checkDecrypt, if_neg (by omega)]
  rcases hi with rfl | rfl <;> exact hpassed

theorem checkLengths_block {i : Instr} {s : State} (hi : i = .encBlk ∨ i = .decBlk) (hlen : s.len = 16) :
    checkLengths i s = none := by
  have hpassed : checkData s (checkBlock s) = none := by
    have hb := bufBytes_legal s.bufBytes
    have h16 : s.len.toNat = 16 := by rw [hlen]; rfl
    rw [checkData, if_neg (by omega), checkBlock, if_neg (by omega)]
  rcases hi with rfl | rfl <;> exact hpassed

/-! ### What a data command writes -/

theorem drawnRaw_length (i : Instr) (nr : Nat) (w : ExpKey) (s : State) :
    (drawnRaw i nr w s).length = (rawResult i nr w (message s) (ivBytes s)).length :=
  drawUnknown_length _ _ _ _

/-- Before unpadding a result is the padded message, the message or one block long, so it fits in OUT (44_commands.md R214 to R219). -/
theorem drawnRaw_fits {i : Instr} {s : State} (nr : Nat) (w : ExpKey) (hc : check (.command i) s = none) :
    (drawnRaw i nr w s).length ≤ s.bufBytes.bytes := by
  have hl := checkLengths_none (checkLengths_of_check hc)
  have hpad : 16 * (blocks (paddedMessage (message s))).length = s.len.toNat + (16 - s.len.toNat % 16) := by
    rw [blocks_length, paddedMessage_length_div, message_length, ← add_padLength, padLength]
  cases i with
  | keyexp => exact Nat.zero_le _
  | encEcb => rwa [drawnRaw_length, rawResult, flatMap_block_length _ (cipherBlock_length w nr), hpad]
  | encCbc => rwa [drawnRaw_length, rawResult, cbcEncBlocks_length, hpad]
  | decEcb => rw [drawnRaw_length_of_decrypt nr w (.inl rfl) hc]; exact hl.1
  | decCbc => rw [drawnRaw_length_of_decrypt nr w (.inr rfl) hc]; exact hl.1
  | encBlk | decBlk =>
    have hb := bufBytes_legal s.bufBytes
    rw [drawnRaw_length]
    show 16 ≤ s.bufBytes.bytes
    omega

theorem dataBytes_length_le (i : Instr) (nr : Nat) (w : ExpKey) (s : State) :
    (dataBytes i nr w s).length ≤ (drawnRaw i nr w s).length := by
  cases i with
  | decEcb | decCbc => exact unpad_length_le _
  | _ => exact Nat.le_refl _

/-- A data command whose checks pass completes without an error and leaves its result, in its frame (44_commands.md R212). -/
theorem exec_dataResult {i : Instr} {s : State} {nr : Nat} {w : ExpKey} (hi : i ≠ .keyexp) (hc : check (.command i) s = none)
    (hk : KeySchedule s nr w) : ∃ t, exec i s = .next t ∧ DataResult w (dataBytes i nr w s) s t := by
  have hb := bufBytes_legal s.bufBytes
  have hfits := drawnRaw_fits nr w hc
  have hle := dataBytes_length_le i nr w s
  exact ⟨_, exec_dataBytes hi hc hk, dataResult_runData w _ s (by omega)⟩

/-! ### Encryption -/

/-- Settles O22: the padded message fits below BUF_BYTES, and the result is its blocks enciphered. -/
theorem encEcbCompletes : Obligations.EncEcbCompletes := by
  intro s hnk hlen
  obtain ⟨nr, w, hk⟩ := exists_keySchedule hnk
  obtain ⟨t, hx, hres⟩ := exec_dataResult (by decide) (check_of_nkLegal hnk (checkLengths_encrypt (.inl rfl) hlen)) hk
  obtain ⟨r, hr, hrlen⟩ := ecbEnc_answers (message s) w nr
  cases (ecbEnc_eq (message s) w nr).symm.trans hr
  rw [message_length] at hrlen
  exact ⟨nr, w, _, t, hk, hr, hrlen, hx, hres⟩

/-- Settles O24: as ENC_ECB, with the blocks chained from the IV. -/
theorem encCbcCompletes : Obligations.EncCbcCompletes := by
  intro s hnk hlen
  obtain ⟨nr, w, hk⟩ := exists_keySchedule hnk
  obtain ⟨t, hx, hres⟩ := exec_dataResult (by decide) (check_of_nkLegal hnk (checkLengths_encrypt (.inr rfl) hlen)) hk
  obtain ⟨r, hr, hrlen⟩ := cbcEnc_answers (message s) w nr (ivBytes s)
  cases (cbcEnc_eq (message s) w nr (ivBytes s)).symm.trans hr
  rw [message_length] at hrlen
  exact ⟨nr, w, _, t, hk, hr, hrlen, hx, hres⟩

/-! ### Decryption -/

theorem unpad_length_of_getLast? {m : Bytes} {n : Byte} (h : m.getLast? = some n) :
    (unpad m).length = m.length - min n.toNat m.length := by
  rw [unpad_of_getLast? h, List.length_take]
  omega

theorem dataBytes_decrypt {i : Instr} (hi : i = .decEcb ∨ i = .decCbc) (nr : Nat) (w : ExpKey) (s : State) :
    dataBytes i nr w s = unpad (drawnRaw i nr w s) := by
  rcases hi with rfl | rfl <;> rfl

/-- Both decryptions: the raw result is as long as the message, so it has a last byte for the unpadder to trust. -/
theorem exec_decrypt {i : Instr} {s : State} (hi : i = .decEcb ∨ i = .decCbc) (hnk : NkLegal s)
    (hfits : s.len.toNat ≤ s.bufBytes.bytes) (hwhole : s.len.toNat % 16 = 0) (hpos : s.len.toNat ≠ 0) :
    ∃ nr w n t, KeySchedule s nr w ∧ (drawnRaw i nr w s).getLast? = some n ∧
      (unpad (drawnRaw i nr w s)).length = s.len.toNat - min n.toNat s.len.toNat ∧ exec i s = .next t ∧
      DataResult w (unpad (drawnRaw i nr w s)) s t := by
  obtain ⟨nr, w, hk⟩ := exists_keySchedule hnk
  have hc := check_of_nkLegal hnk (checkLengths_decrypt hi hfits hwhole hpos)
  obtain ⟨t, hx, hres⟩ := exec_dataResult (by rcases hi with rfl | rfl <;> decide) hc hk
  have hlen := drawnRaw_length_of_decrypt nr w hi hc
  have hne : drawnRaw i nr w s ≠ [] := List.ne_nil_of_length_pos (by omega)
  have hlast := List.getLast?_eq_some_getLast hne
  have hunpad := unpad_length_of_getLast? hlast
  rw [hlen] at hunpad
  rw [dataBytes_decrypt hi] at hres
  exact ⟨nr, w, _, t, hk, hlast, hunpad, hx, hres⟩

/-- Settles O23: the raw result of DEC_ECB is the blocks deciphered one by one. -/
theorem decEcbCompletes : Obligations.DecEcbCompletes := by
  intro s hnk hfits hwhole hpos
  obtain ⟨nr, w, n, t, hk, hlast, hlen, hx, hres⟩ := exec_decrypt (.inl rfl) hnk hfits hwhole hpos
  exact ⟨nr, w, _, n, t, hk, rfl, hlast, hlen, hx, hres⟩

/-- Settles O25: the raw result of DEC_CBC is the blocks deciphered and chained from the IV. -/
theorem decCbcCompletes : Obligations.DecCbcCompletes := by
  intro s hnk hfits hwhole hpos
  obtain ⟨nr, w, n, t, hk, hlast, hlen, hx, hres⟩ := exec_decrypt (.inr rfl) hnk hfits hwhole hpos
  exact ⟨nr, w, _, n, t, hk, rfl, hlast, hlen, hx, hres⟩

/-! ### Single blocks -/

theorem message_take_block {s : State} (hlen : s.len = 16) : (message s).take 16 = message s :=
  List.take_of_length_le (by rw [message_length, hlen]; decide)

theorem drawnRaw_encBlk {s : State} (hlen : s.len = 16) (nr : Nat) (w : ExpKey) :
    drawnRaw .encBlk nr w s = drawnResult ecbUnknown s (cipherBlock w nr (message s)) := by
  rw [← message_take_block hlen]
  rfl

theorem drawnRaw_decBlk {s : State} (hlen : s.len = 16) (nr : Nat) (w : ExpKey) :
    drawnRaw .decBlk nr w s = drawnResult ecbUnknown s (invCipherBlock w nr (message s)) := by
  rw [← message_take_block hlen]
  rfl

/-- Both single-block commands: a result of 16 bytes, which nothing unpads. -/
theorem exec_block {i : Instr} {s : State} {nr : Nat} {w : ExpKey} (hi : i = .encBlk ∨ i = .decBlk) (hnk : NkLegal s)
    (hlen : s.len = 16) (hk : KeySchedule s nr w) :
    ∃ t, exec i s = .next t ∧ t.outlen = 16 ∧ DataResult w (drawnRaw i nr w s) s t := by
  have hc := check_of_nkLegal hnk (checkLengths_block hi hlen)
  have hbytes : i ≠ .keyexp ∧ dataBytes i nr w s = drawnRaw i nr w s ∧ (drawnRaw i nr w s).length = 16 := by
    rw [drawnRaw_length]
    rcases hi with rfl | rfl <;> exact ⟨by decide, rfl, rfl⟩
  obtain ⟨hdata, heq, h16⟩ := hbytes
  obtain ⟨t, hx, hres⟩ := exec_dataResult hdata hc hk
  rw [heq] at hres
  exact ⟨t, hx, BitVec.eq_of_toNat_eq (hres.out.outlen.trans h16), hres⟩

/-- Settles O26: a message of 16 bytes is its own first block. -/
theorem encBlkCompletes : Obligations.EncBlkCompletes := by
  intro s hnk hlen
  obtain ⟨nr, w, hk⟩ := exists_keySchedule hnk
  obtain ⟨t, hx, hout, hres⟩ := exec_block (.inl rfl) hnk hlen hk
  rw [drawnRaw_encBlk hlen] at hres
  exact ⟨nr, w, t, hk, hx, hout, hres⟩

/-- Settles O27: a message of 16 bytes is its own first block. -/
theorem decBlkCompletes : Obligations.DecBlkCompletes := by
  intro s hnk hlen
  obtain ⟨nr, w, hk⟩ := exists_keySchedule hnk
  obtain ⟨t, hx, hout, hres⟩ := exec_block (.inr rfl) hnk hlen hk
  rw [drawnRaw_decBlk hlen] at hres
  exact ⟨nr, w, t, hk, hx, hout, hres⟩

/-! ### DEC_BLK undoes ENC_BLK -/

/-- What OUT and OUTLEN hold, read back. -/
theorem OutHolds.outMessage_eq {r : Bytes} {s t : State} (h : OutHolds r s t) : outMessage t = r := by
  have hlen : (outMessage t).length = r.length := by rw [outMessage, List.length_map, List.length_range, h.outlen]
  refine List.ext_getElem hlen fun k _ hk => ?_
  rw [← List.getD_eq_getElem _ 0 hk, ← h.bytes k hk]
  simp [outMessage]

/-- With a written message the result of a single-block command is its cipher's block (70_reset_and_hazards.md R273). -/
theorem DataResult.outMessage_of_written {w : ExpKey} {r : Bytes} {s t : State} (h : DataResult w (drawnResult ecbUnknown s r) s t)
    (hs : MessageWritten s) : outMessage t = r := by
  rw [h.out.outMessage_eq, drawnResult_known _ _ _ (ecbUnknown_written hs)]

/-- Settles O49: both commands expand the same key, and InvCipher undoes Cipher on the block. -/
theorem blockCommandRoundTrip : Obligations.BlockCommandRoundTrip := by
  intro s t u hs hu hnk hlen hx hnku hkey hmsg
  obtain ⟨nr, w, hk⟩ := exists_keySchedule hnk
  obtain ⟨t', hx', -, hres⟩ := exec_block (.inl rfl) hnk hlen hk
  cases hx'.symm.trans hx
  rw [drawnRaw_encBlk hlen] at hres
  have hblock : message u = cipherBlock w nr (message s) := hmsg.trans (hres.outMessage_of_written hs)
  have hlenu : u.len = 16 := BitVec.eq_of_toNat_eq (by rw [← message_length, hblock, cipherBlock_length]; rfl)
  obtain ⟨v, hv, -, hresv⟩ := exec_block (.inr rfl) (by rwa [NkLegal, hnku]) hlenu (hk.of_sameKey hnku hkey)
  rw [drawnRaw_decBlk hlenu] at hresv
  have h16 : (message s).length = 16 := by rw [message_length, hlen]; rfl
  refine ⟨v, hv, hresv.completed.err, ?_⟩
  rw [hresv.outMessage_of_written hu, hblock, invCipherBlock_cipherBlock w nr h16]

end Sys2Proof.Machine
end

section
/-! PROOF. Completion and the errors (60_exceptions.md): the priority of the checks (R247), what a failed command leaves (R246, R248), when
each length error is reported (R241, R242, R245), and the events at which DONE and ERR change (R251, R253). -/

namespace Sys2Proof.Machine

/-! ### Completion -/

/-- Settles O13: completion is that update, and irq is IE under a set DONE. -/
theorem completionWritesStatusOnly : Obligations.CompletionWritesStatusOnly :=
  fun _ s => ⟨rfl, Bool.and_true s.ie⟩

/-- Settles O15: a check that fails leaves the completion alone to be done. -/
theorem failedCommandWritesStatusOnly : Obligations.FailedCommandWritesStatusOnly := fun _ s e hc =>
  ⟨_, exec_checkError hc, completedWith_complete (errCode e) s, resultsKept_complete (errCode e) s, coreFrame_complete (errCode e) s⟩

/-! ### The code a check reports -/

/-- `Check(op)` as the code that STATUS.ERR takes, 0 for no error (60_exceptions.md R240, R247). -/
def checkCode (d : Decoded) (s : State) : BitVec 4 := ((check d s).map errCode).getD 0

/-- A test that fails decides the code; one that passes leaves it to the tests after it. -/
theorem getD_map_errCode_ite (c : Prop) [Decidable c] (e : CmdError) (rest : Option CmdError) :
    ((if c then some e else rest).map errCode).getD 0 = if c then errCode e else (rest.map errCode).getD 0 := by
  split <;> rfl

theorem checkCode_of_nkIllegal (i : Instr) {s : State} (hnk : ¬NkLegal s) : checkCode (.command i) s = 1 := by
  rw [checkCode, check, if_neg (mt (legalNk_iff s).1 hnk)]
  rfl

theorem checkCode_of_nkLegal (i : Instr) {s : State} (hnk : NkLegal s) :
    checkCode (.command i) s = ((checkLengths i s).map errCode).getD 0 := by
  rw [checkCode, check, if_pos ((legalNk_iff s).2 hnk)]

/-- Settles O14: an illegal NK is reported before any length, and of the length tests each command makes its own. -/
theorem errorPriority : Obligations.ErrorPriority := by
  intro d s
  cases d with
  | invalid why => rfl
  | command i =>
    by_cases hnk : NkLegal s
    · refine (checkCode_of_nkLegal i hnk).trans (Eq.trans ?_ (if_neg (not_not.2 hnk)).symm)
      cases i with
      | keyexp => rfl
      | encEcb | encCbc =>
        have hpad : padLength s.len.toNat = 16 - s.len.toNat % 16 := rfl
        simp only [checkLengths, checkData, checkEncrypt, getD_map_errCode_ite, hpad]
        simp [errCode]
      | decEcb | decCbc =>
        simp only [checkLengths, checkData, checkDecrypt, getD_map_errCode_ite]
        simp [errCode]
      | encBlk | decBlk =>
        simp only [checkLengths, checkData, checkBlock, getD_map_errCode_ite]
        simp [errCode]
    · exact (checkCode_of_nkIllegal i hnk).trans (if_pos hnk).symm

/-- Every command ends with the code of its check in ERR. -/
theorem exec_err {i : Instr} {s t : State} (hx : exec i s = .next t) : t.err = checkCode (.command i) s := by
  rcases exec_cases i s with ⟨e, hc, he⟩ | ⟨_, _, hc, -, -, he⟩ | ⟨_, _, _, hc, -, -, -, he⟩ <;> cases he.symm.trans hx <;>
    rw [checkCode, hc] <;> rfl

/-- A code other than 0 is what the command completes with, and its results stay (60_exceptions.md R248). -/
theorem exec_of_checkCode {i : Instr} {s : State} {code : BitVec 4} (hcode : checkCode (.command i) s = code) (hfailed : code ≠ 0) :
    ∃ t, exec i s = .next t ∧ CompletedWith code t ∧ ResultsKept s t := by
  subst hcode
  cases hc : check (.command i) s with
  | none => exact absurd (by rw [checkCode, hc]; rfl) hfailed
  | some e =>
    obtain ⟨t, hx, hdone, hkept, -⟩ := failedCommandWritesStatusOnly i s e hc
    exact ⟨t, hx, by rwa [checkCode, hc], hkept⟩

/-! ### InvalidKeyLength -/

/-- A command reports InvalidKeyLength for an illegal NK alone: no later test of the priority order has its code. -/
theorem checkCode_eq_one_iff (i : Instr) (s : State) : checkCode (.command i) s = 1 ↔ ¬NkLegal s := by
  refine ⟨fun h hnk => ?_, checkCode_of_nkIllegal i⟩
  have hchain := (errorPriority (.command i) s).symm.trans h
  unfold NkLegal at hnk
  simp only [hnk, not_true_eq_false, if_false] at hchain
  split_ifs at hchain <;> simp at hchain

/-- Settles O16: an illegal NK is the code 1, and the core's step is the command's. -/
theorem invalidKeyLengthOnEveryCommand : Obligations.InvalidKeyLengthOnEveryCommand := by
  refine ⟨fun s i hturn hbusy hd hnk => ?_, fun i s t hx => ?_, rfl, ?_⟩
  · obtain ⟨t, hx, hdone, hkept⟩ := exec_of_checkCode (s := { s with turns := s.turns.tail }) (checkCode_of_nkIllegal i hnk) (by decide)
    exact ⟨t, (step_command hturn hbusy hd).trans hx, hdone, hkept.rk, hkept.outlen, hkept.outBytes⟩
  · rw [exec_err hx, checkCode_eq_one_iff]
  · unfold NkLegal
    decide

/-! ### The length errors -/

/-- An encryption makes none of the tests of the other commands. -/
theorem encrypt_not_other {i : Instr} (hi : i = .encEcb ∨ i = .encCbc) :
    i ≠ .keyexp ∧ ¬(i = .decEcb ∨ i = .decCbc) ∧ ¬(i = .encBlk ∨ i = .decBlk) := by
  rcases hi with rfl | rfl <;> decide

/-- Settles O17: with the key legal and the message inside IN, the block length is the next test of those four commands, and an
encryption makes no such test. -/
theorem invalidBlockLength : Obligations.InvalidBlockLength := by
  refine ⟨fun i s hi hnk hfits hbad => ?_, fun i s hi hnk hfits hbad => ?_, fun i s t hi hx => ?_⟩
  · have hkey : i ≠ .keyexp := by rcases hi with rfl | rfl <;> decide
    refine exec_of_checkCode ((errorPriority (.command i) s).trans ?_) (by decide)
    exact (if_neg (not_not.2 hnk)).trans <| (if_neg hkey).trans <| (if_neg (Nat.not_lt.2 hfits)).trans <| if_pos ⟨hi, hbad⟩
  · have hkey : i ≠ .keyexp := by rcases hi with rfl | rfl <;> decide
    have hdec : ¬(i = .decEcb ∨ i = .decCbc) := by rcases hi with rfl | rfl <;> decide
    refine exec_of_checkCode ((errorPriority (.command i) s).trans ?_) (by decide)
    exact (if_neg (not_not.2 hnk)).trans <| (if_neg hkey).trans <| (if_neg (Nat.not_lt.2 hfits)).trans <|
      (if_neg (mt And.left hdec)).trans <| if_pos ⟨hi, hbad⟩
  · obtain ⟨-, hdec, hblk⟩ := encrypt_not_other hi
    rw [exec_err hx]
    intro h
    have hchain := (errorPriority (.command i) s).symm.trans h
    simp only [hdec, hblk, false_and, if_false] at hchain
    split_ifs at hchain <;> simp at hchain

/-- BUF_BYTES is a multiple of 16, as every padded length is. -/
theorem paddedLength_gt_bufBytes_iff (s : State) :
    s.len.toNat + (16 - s.len.toNat % 16) > s.bufBytes.bytes ↔ s.len.toNat ≥ s.bufBytes.bytes := by
  have hb := bufBytes_legal s.bufBytes
  omega

theorem checkCode_of_inputOverflow {i : Instr} {s : State} (hi : i ≠ .keyexp) (hnk : NkLegal s)
    (hover : s.len.toNat > s.bufBytes.bytes) : checkCode (.command i) s = 5 :=
  (errorPriority (.command i) s).trans <| (if_neg (not_not.2 hnk)).trans <| (if_neg hi).trans <| if_pos hover

/-- A padded output that does not fit: reported on input if the message does not fit either, else after the tests of R242 and R243,
which an encryption passes. -/
theorem checkCode_of_outputOverflow {i : Instr} {s : State} (hi : i = .encEcb ∨ i = .encCbc) (hnk : NkLegal s)
    (hover : s.len.toNat + (16 - s.len.toNat % 16) > s.bufBytes.bytes) : checkCode (.command i) s = 5 := by
  obtain ⟨hkey, hdec, hblk⟩ := encrypt_not_other hi
  by_cases hin : s.len.toNat > s.bufBytes.bytes
  · exact checkCode_of_inputOverflow hkey hnk hin
  · have hguard : ¬16 - s.len.toNat % 16 ≥ 256 := by omega
    exact (errorPriority (.command i) s).trans <| (if_neg (not_not.2 hnk)).trans <| (if_neg hkey).trans <| (if_neg hin).trans <|
      (if_neg (mt And.left hdec)).trans <| (if_neg (mt And.left hblk)).trans <| (if_neg (mt And.right hguard)).trans <|
      if_pos ⟨hi, hover⟩

/-- Settles O18: both tests have the code 5. -/
theorem bufferOverflow : Obligations.BufferOverflow :=
  ⟨fun _ _ hi hnk hover => exec_of_checkCode (checkCode_of_inputOverflow hi hnk hover) (by decide),
    fun _ _ hi hnk hover => exec_of_checkCode (checkCode_of_outputOverflow hi hnk hover) (by decide), paddedLength_gt_bufBytes_iff⟩

/-! ### The events of DONE and ERR -/

/-- What a step can do to DONE and ERR: nothing, or one of the four events of 60_exceptions.md R251 and R253. -/
inductive StatusEvent (s t : State) : Prop
  | kept (done : t.done = s.done) (err : t.err = s.err)
  | completed (turn : nextTurn s = .core) (wasBusy : s.busy = true) (busy : t.busy = false) (done : t.done = true)
  | acknowledged {v : HostVal} {rest : List HostOp} (turn : nextTurn s = .host) (line : s.prog = .write 0x00004 15 v :: rest)
      (done : t.done = if (hostValue v s).1.getLsbD 1 then false else s.done) (err : t.err = s.err)
  | issued (turn : nextTurn s = .host) (wasBusy : s.busy = false) (busy : t.busy = true) (done : t.done = false) (err : t.err = 0)
  | reset (turn : nextTurn s = .reset) (done : t.done = false)

/-- Only STATUS and CMD are locations whose writes touch DONE or ERR. -/
theorem writeTarget_status_cases (t : Target) (v : Word) (s : State) :
    t = .status ∨ t = .cmd ∨ ((writeTarget t v s).done = s.done ∧ (writeTarget t v s).err = s.err) := by
  cases t with
  | status => exact .inl rfl
  | cmd => exact .inr (.inl rfl)
  | _ => exact .inr (.inr ⟨rfl, rfl⟩)

/-- STATUS is reached at address 4 with all four lanes (20_memory.md R51, R58). -/
theorem eq_of_target_status {s : State} {addr : BitVec 18} {lanes : BitVec 4} (h : target s addr lanes = some .status) :
    addr = 0x00004 ∧ lanes = 15 := by
  obtain ⟨-, hlanes, hmap⟩ := target_some h
  have haddr : addr.toNat = 4 := liesAt_of_mapAddress hmap
  exact ⟨BitVec.eq_of_toNat_eq haddr, hlanes⟩

/-- The word a line sends does not depend on the turns. -/
theorem hostValue_turns (v : HostVal) (s : State) (turns : List Turn) :
    (hostValue v { s with turns := turns }).1 = (hostValue v s).1 := by
  cases v with
  | lit w => rfl
  | name x => simp only [hostValue]; split <;> rfl

/-- The host's step on DONE and ERR is the effect of the location its line writes. -/
theorem HostEffect.statusEvent {s u t : State} (hturn : nextTurn s = .host) (heff : HostEffect { s with turns := s.turns.tail } u)
    (hhost : HostOnly u t) : StatusEvent s t := by
  obtain ⟨_, _, _, _, -, rfl⟩ := hhost
  cases heff with
  | unchanged | dropped => exact .kept rfl rfl
  | written v loc line reached allowed =>
    rw [hostValue_turns]
    rcases writeTarget_status_cases loc (hostValue v s).1 { s with turns := s.turns.tail } with rfl | rfl | ⟨hdone, herr⟩
    · obtain ⟨rfl, rfl⟩ := eq_of_target_status reached
      exact .acknowledged hturn line rfl rfl
    · exact .issued hturn (Bool.eq_false_iff.2 fun hb => absurd (allowed hb) Bool.false_ne_true) rfl rfl rfl
    · exact .kept hdone herr

theorem step_statusEvent {s t : State} (h : step s = .next t) : StatusEvent s t := by
  rcases step_cases s with ⟨hturn, hx⟩ | ⟨hturn, hx⟩ | ⟨hturn, hx⟩ <;> rw [hx] at h
  · cases h
    obtain ⟨u, heff, hhost⟩ := hostStep_effect { s with turns := s.turns.tail }
    exact heff.statusEvent hturn hhost
  · cases hbusy : s.busy with
    | false =>
      cases (coreStep_idle (s := { s with turns := s.turns.tail }) hbusy).symm.trans h
      exact .kept rfl rfl
    | true =>
      obtain ⟨t', _, ht, hdone⟩ := coreStep_completes (s := { s with turns := s.turns.tail }) hbusy
      cases ht.symm.trans h
      exact .completed hturn hbusy hdone.busy hdone.done
  · cases h
    exact .reset hturn rfl

/-- Settles O58, by the event the step is. -/
theorem doneAndErrChangeOnlyAtTheirEvents : Obligations.DoneAndErrChangeOnlyAtTheirEvents := by
  intro s t h
  cases step_statusEvent h with
  | kept hdone herr =>
    exact ⟨fun h0 h1 => by simp [hdone, h0] at h1, fun h1 h0 => by simp [hdone, h1] at h0, fun hne => absurd herr hne⟩
  | completed hturn hwas hbusy hdone =>
    exact ⟨fun _ _ => ⟨hturn, hwas, hbusy⟩, fun _ h0 => by simp [hdone] at h0, fun _ => .inl ⟨hturn, hwas, hbusy⟩⟩
  | acknowledged hturn hline hdone herr =>
    refine ⟨fun h0 h1 => by simp [hdone, h0] at h1, fun h1 h0 => .inl ⟨hturn, _, _, hline, ?_⟩, fun hne => absurd herr hne⟩
    simpa [hdone, h1] using h0
  | issued hturn hwas hbusy hdone herr =>
    exact ⟨fun _ h1 => by simp [hdone] at h1, fun _ _ => .inr (.inl ⟨hturn, hwas, hbusy, herr⟩),
      fun _ => .inr (.inl ⟨hturn, hwas, hbusy, herr⟩)⟩
  | reset hturn hdone =>
    exact ⟨fun _ h1 => by simp [hdone] at h1, fun _ _ => .inr (.inr hturn), fun _ => .inr (.inr hturn)⟩

end Sys2Proof.Machine
end

section
/-! PROOF. Reset and unwritten operands (70_reset_and_hazards.md): what a reset step leaves (R270, R271), and the result of a data command
whose message bytes are all written, or not (R273; 93_implementation_defined.md I2). -/

namespace Sys2Proof.Machine

/-! ### Reset -/

theorem drawnCells_getElem (n : Nat) (i : Fin 60) : (drawnCells n)[i] = .drawn (n + i.val) := by simp [drawnCells]

theorem statusWord_applyReset (s : State) : statusWord (applyReset s) = 0 := by simp [statusWord, flagWord]

/-- Settles O59: a reset step is the update of reset alone, whatever was in flight. -/
theorem resetStep : Obligations.ResetStep := by
  intro s hturn
  have hstep : step s = .next (applyReset { s with turns := s.turns.tail }) := by rw [step, hturn]; rfl
  have hcells (i : Fin 60) : ∃ n, s.draws ≤ n ∧ (drawnCells s.draws)[i] = .drawn n :=
    ⟨_, Nat.le_add_right _ i.val, drawnCells_getElem _ i⟩
  exact ⟨_, hstep, rfl, statusWord_applyReset _, rfl, rfl, rfl, rfl, fun j => Vector.getElem_replicate j.isLt,
    fun c => Vector.getElem_replicate c.isLt, hcells, rfl, Nat.le_add_right _ 60, Nat.le_add_right _ 61, rfl, rfl, rfl, rfl, rfl⟩

/-! ### A data command that completes without an error -/

theorem check_of_err_zero {i : Instr} {s t : State} (hx : exec i s = .next t) (herr : t.err = 0) : check (.command i) s = none := by
  cases hc : check (.command i) s with
  | none => rfl
  | some e =>
    cases (exec_checkError hc).symm.trans hx
    exact absurd herr (errCode_ne_zero e)

theorem dataResult_of_exec {i : Instr} {s t : State} {nr : Nat} {w : ExpKey} (hi : i ≠ .keyexp) (hk : KeySchedule s nr w)
    (hx : exec i s = .next t) (herr : t.err = 0) : DataResult w (dataBytes i nr w s) s t := by
  obtain ⟨t', hx', hres⟩ := exec_dataResult hi (check_of_err_zero hx herr) hk
  cases hx'.symm.trans hx
  exact hres

/-! ### A written message -/

theorem resultUnknown_of_written {s : State} (hs : MessageWritten s) (i : Instr) (k : Nat) : resultUnknown i s k = false := by
  cases i with
  | keyexp => rfl
  | encEcb | decEcb | encBlk | decBlk => exact ecbUnknown_written hs k
  | encCbc => exact cbcEncUnknown_written hs k
  | decCbc => exact cbcDecUnknown_written hs k

theorem drawnRaw_of_written {s : State} (hs : MessageWritten s) (i : Instr) (nr : Nat) (w : ExpKey) :
    drawnRaw i nr w s = rawResult i nr w (message s) (ivBytes s) :=
  drawUnknown_known _ _ _ _ (resultUnknown_of_written hs i)

/-- A single-block command that completes without an error has its one block as the message. -/
theorem message_take_block_of_check {i : Instr} {s : State} (hi : i = .encBlk ∨ i = .decBlk) (hc : check (.command i) s = none) :
    (message s).take 16 = message s := by
  have hl := checkLengths_none (checkLengths_of_check hc)
  have hlen : s.len.toNat = 16 := by rcases hi with rfl | rfl <;> exact hl
  exact message_take_block (BitVec.eq_of_toNat_eq hlen)

/-- Settles O28: nothing of the raw result is drawn, so the command writes it, unpadded after a decryption. -/
theorem writtenMessageGivesDefinedResult : Obligations.WrittenMessageGivesDefinedResult := by
  intro s t nr w hs hk herr
  have hout (i : Instr) (hi : i ≠ .keyexp) (hx : exec i s = .next t) : outMessage t = dataBytes i nr w s :=
    (dataResult_of_exec hi hk hx herr).out.outMessage_eq
  have hraw (i : Instr) := drawnRaw_of_written hs i nr w
  refine ⟨fun r hx hr => ?_, fun hx => ?_, fun r hx hr => ?_, fun hx => ?_, fun hx => ?_, fun hx => ?_⟩
  · cases (ecbEnc_eq (message s) w nr).symm.trans hr
    exact (hout .encEcb (by decide) hx).trans (hraw .encEcb)
  · exact (hout .decEcb (by decide) hx).trans (congrArg unpad (hraw .decEcb))
  · cases (cbcEnc_eq (message s) w nr (ivBytes s)).symm.trans hr
    exact (hout .encCbc (by decide) hx).trans (hraw .encCbc)
  · exact (hout .decCbc (by decide) hx).trans (congrArg unpad (hraw .decCbc))
  · rw [← message_take_block_of_check (.inl rfl) (check_of_err_zero hx herr)]
    exact (hout .encBlk (by decide) hx).trans (hraw .encBlk)
  · rw [← message_take_block_of_check (.inr rfl) (check_of_err_zero hx herr)]
    exact (hout .decBlk (by decide) hx).trans (hraw .decBlk)

/-! ### An unwritten message byte -/

theorem slice_any_of_getD {u : List Bool} {j m n : Nat} (h : u.getD j false = true) (hm : m ≤ j) (hn : j < m + n) :
    ((u.drop m).take n).any id = true :=
  eq_true_of_ne_false fun hany => Bool.false_ne_true ((getD_false_of_slice_any hany hm hn).symm.trans h)

theorem messageUnknown_of_unwritten {s : State} {j : Nat} (hj : j < s.len.toNat) (hnone : Memory.lookup (inBase + j) s.mem = none) :
    messageUnknown s j = true := by
  rw [messageUnknown, unknownBytes_getD s j hj, hnone]
  rfl

/-- Whether byte k of the result of command `i`, before unpadding, depends on message byte j (log entry 19): it is in the block of j, or
the chaining of CBC carries j to it. -/
def DependsOn (i : Instr) (k j : Nat) : Prop :=
  k / 16 = j / 16 ∨ (i = .encCbc ∧ j / 16 ≤ k / 16) ∨ (i = .decCbc ∧ k = j + 16)

theorem resultUnknown_of_dependsOn {i : Instr} {s : State} {k j : Nat} (hi : i ≠ .keyexp) (hj : messageUnknown s j = true)
    (hdep : DependsOn i k j) : resultUnknown i s k = true := by
  have hblock (h : k / 16 = j / 16) : ecbUnknown (unknownBytes s) k = true := slice_any_of_getD hj (by omega) (by omega)
  cases i with
  | keyexp => exact absurd rfl hi
  | encEcb | decEcb | encBlk | decBlk => exact hblock (by simpa [DependsOn] using hdep)
  | encCbc =>
    have hle : j / 16 ≤ k / 16 := by
      rcases hdep with h | ⟨-, h⟩ | ⟨h, -⟩
      · exact h.ge
      · exact h
      · cases h
    exact slice_any_of_getD (m := 0) hj (Nat.zero_le j) (by omega)
  | decCbc =>
    show (ecbUnknown (unknownBytes s) k || (decide (16 ≤ k) && messageUnknown s (k - 16))) = true
    rcases hdep with h | ⟨h, -⟩ | ⟨-, rfl⟩
    · rw [hblock h, Bool.true_or]
    · cases h
    · simp [hj]

/-- A raw result byte that depends on an unwritten message byte is the free byte of the command's draw. -/
theorem drawnRaw_getD_of_dependsOn {i : Instr} {s : State} {k j : Nat} (hi : i ≠ .keyexp) (hj : messageUnknown s j = true)
    (hdep : DependsOn i k j) {nr : Nat} {w : ExpKey} (hk : k < (drawnRaw i nr w s).length) :
    (drawnRaw i nr w s).getD k 0 = Config.freeByte s.draws (outBase + k) := by
  rw [drawnRaw_length] at hk
  rw [drawnRaw, drawUnknown_getD _ _ _ _ _ hk, Nat.zero_add, if_pos (resultUnknown_of_dependsOn hi hj hdep)]

/-- Settles O29: a free byte of the raw result stays in OUT if unpadding keeps it, and the last one sets OUTLEN. -/
theorem unwrittenInputGivesFreeResult : Obligations.UnwrittenInputGivesFreeResult := by
  intro i s t j hi hj hnone hx herr
  have hc := check_of_err_zero hx herr
  obtain ⟨nr, w, hk⟩ := exists_keySchedule (nkLegal_of_check hc)
  have hunknown := messageUnknown_of_unwritten hj hnone
  have hout := (dataResult_of_exec hi hk hx herr).out
  refine ⟨?_, fun k hlt hdep => ?_, fun hd hdep => ?_⟩
  · cases (exec_dataBytes hi hc hk).symm.trans hx
    exact Nat.lt_add_of_pos_right (by decide)
  · rw [hout.outlen] at hlt
    rw [hout.bytes k hlt, dataBytes_getD i nr w s hlt]
    exact drawnRaw_getD_of_dependsOn hi hunknown hdep (Nat.lt_of_lt_of_le hlt (dataBytes_length_le i nr w s))
  · have hlen := drawnRaw_length_of_decrypt nr w hd hc
    rw [hout.outlen, dataBytes_decrypt hd, unpad_length, hlen,
      drawnRaw_getD_of_dependsOn hi hunknown (hdep.imp_right .inr) (by omega)]

end Sys2Proof.Machine
end

section
/-! PROOF. The test vectors (95_test_vectors.md): the known answer of V1, and the round trips of V3 as commands. -/

namespace Sys2Proof.Machine

/-! ### The known answer -/

/-- The 44 words of the expansion of V1's key. -/
def v1ExpandedKey : ExpKey :=
  [0x2b7e1516, 0x28aed2a6, 0xabf71588, 0x09cf4f3c, 0xa0fafe17, 0x88542cb1, 0x23a33939, 0x2a6c7605,
   0xf2c295f2, 0x7a96b943, 0x5935807a, 0x7359f67f, 0x3d80477d, 0x4716fe3e, 0x1e237e44, 0x6d7a883b,
   0xef44a541, 0xa8525b7f, 0xb671253b, 0xdb0bad00, 0xd4d1c6f8, 0x7c839d87, 0xcaf2b8bc, 0x11f915bc,
   0x6d88a37a, 0x110b3efd, 0xdbf98641, 0xca0093fd, 0x4e54f70e, 0x5f5fc9f3, 0x84a64fb2, 0x4ea6dc4f,
   0xead27321, 0xb58dbad2, 0x312bf560, 0x7f8d292f, 0xac7766f3, 0x19fadc21, 0x28d12941, 0x575c006e,
   0xd014f9a8, 0xc9ee2589, 0xe13f0cc8, 0xb6630ca6]

theorem expand_v1Key : expand 4 [0x2b7e1516, 0x28aed2a6, 0xabf71588, 0x09cf4f3c] = .ok v1ExpandedKey := by
  have hschedule : scheduleFrom 4 40 [0x2b7e1516, 0x28aed2a6, 0xabf71588, 0x09cf4f3c] = v1ExpandedKey := by decide
  rw [(expand_legal (nk := 4) (nr := 10) rfl rfl).1, hschedule]

theorem cipher_v1ExpandedKey :
    cipher ⟨0x3243f6a8, 0x885a308d, 0x313198a2, 0xe0370734⟩ v1ExpandedKey 10 =
      ⟨0x3925841d, 0x02dc09fb, 0xdc118597, 0x196a0b32⟩ := by
  decide +kernel

/-- Settles O40: the expansion of V1's key, then the cipher under it. -/
theorem cipherKnownAnswer : Obligations.CipherKnownAnswer := by
  rw [Obligations.CipherKnownAnswer, expand_v1Key, Except.map, cipher_v1ExpandedKey]

/-! ### Decryption undoes encryption -/

/-- With a written message an encryption leaves its raw result in OUT (44_commands.md R214, R216). -/
theorem outMessage_encrypt {i : Instr} {s t : State} {nr : Nat} {w : ExpKey} (hi : i = .encEcb ∨ i = .encCbc) (hs : MessageWritten s)
    (hnk : NkLegal s) (hlen : s.len.toNat < s.bufBytes.bytes) (hk : KeySchedule s nr w) (hx : exec i s = .next t) :
    outMessage t = rawResult i nr w (message s) (ivBytes s) := by
  have hdata : i ≠ .keyexp ∧ dataBytes i nr w s = drawnRaw i nr w s := by rcases hi with rfl | rfl <;> exact ⟨by decide, rfl⟩
  obtain ⟨hne, hbytes⟩ := hdata
  obtain ⟨t', hx', hres⟩ := exec_dataResult hne (check_of_nkLegal hnk (checkLengths_encrypt hi hlen)) hk
  cases hx'.symm.trans hx
  rw [hres.out.outMessage_eq, hbytes, drawnRaw_of_written hs]

/-- With a written message a decryption that passes its length checks leaves its raw result unpadded in OUT (44_commands.md R215, R217). -/
theorem exec_decrypt_written {i : Instr} {s : State} {nr : Nat} {w : ExpKey} (hi : i = .decEcb ∨ i = .decCbc) (hs : MessageWritten s)
    (hnk : NkLegal s) (hlen : checkLengths i s = none) (hk : KeySchedule s nr w) :
    ∃ t, exec i s = .next t ∧ t.err = 0 ∧ outMessage t = unpad (rawResult i nr w (message s) (ivBytes s)) := by
  have hne : i ≠ .keyexp := by rcases hi with rfl | rfl <;> decide
  obtain ⟨t, hx, hres⟩ := exec_dataResult hne (check_of_nkLegal hnk hlen) hk
  refine ⟨t, hx, hres.completed.err, ?_⟩
  rw [hres.out.outMessage_eq, dataBytes_decrypt hi, drawnRaw_of_written hs]

/-- `dec` undoes `enc` on the bytes of a message, with the length law that lets `dec` accept the ciphertext (43_modes_padding.md R190). -/
def RawRoundTrip (enc dec : Instr) (p iv iv' : Bytes) : Prop :=
  ∀ nr w, (rawResult enc nr w p iv).length = p.length + (16 - p.length % 16) ∧
    unpad (rawResult dec nr w (rawResult enc nr w p iv) iv') = p

theorem rawRoundTrip_ecb (p iv iv' : Bytes) (hiv : iv.length = 16) : RawRoundTrip .encEcb .decEcb p iv iv' := by
  intro nr w
  obtain ⟨-, ⟨r, hr, hlaws⟩, -⟩ := roundTripLaws p iv w nr hiv
  cases (ecbEnc_eq p w nr).symm.trans hr
  exact hlaws

theorem rawRoundTrip_cbc (p iv : Bytes) (hiv : iv.length = 16) : RawRoundTrip .encCbc .decCbc p iv iv := by
  intro nr w
  obtain ⟨-, -, r, hr, hlaws⟩ := roundTripLaws p iv w nr hiv
  cases (cbcEnc_eq p w nr iv).symm.trans hr
  exact hlaws

/-- A round trip of the bytes is one of the commands: both expand the same key, and the ciphertext is whole blocks that fit in IN. -/
theorem RawRoundTrip.commands {enc dec : Instr} {s t u : State} (henc : enc = .encEcb ∨ enc = .encCbc)
    (hdec : dec = .decEcb ∨ dec = .decCbc) (hraw : RawRoundTrip enc dec (message s) (ivBytes s) (ivBytes u)) (hs : MessageWritten s)
    (hu : MessageWritten u) (hnk : NkLegal s) (hlen : s.len.toNat < s.bufBytes.bytes) (hx : exec enc s = .next t)
    (hbuf : u.bufBytes = s.bufBytes) (hnku : u.nk = s.nk) (hkey : ∀ j : Fin 8, j.val < s.nk.toNat → u.key[j] = s.key[j])
    (hmsg : message u = outMessage t) : ∃ v, exec dec u = .next v ∧ v.err = 0 ∧ outMessage v = message s := by
  obtain ⟨nr, w, hk⟩ := exists_keySchedule hnk
  obtain ⟨hrlen, hunpad⟩ := hraw nr w
  have hcipher : message u = rawResult enc nr w (message s) (ivBytes s) := hmsg.trans (outMessage_encrypt henc hs hnk hlen hk hx)
  have hlenu : u.len.toNat = s.len.toNat + (16 - s.len.toNat % 16) := by
    rw [← message_length u, ← message_length s, hcipher, hrlen]
  have hbytes := bufBytes_legal s.bufBytes
  have hchecks : checkLengths dec u = none := checkLengths_decrypt hdec (by rw [hbuf]; omega) (by omega) (by omega)
  obtain ⟨v, hv, herr, hout⟩ := exec_decrypt_written hdec hu (by rwa [NkLegal, hnku]) hchecks (hk.of_sameKey hnku hkey)
  exact ⟨v, hv, herr, by rw [hout, hcipher, hunpad]⟩

/-- Settles O47: the ECB round trip of R190 on the messages of the two states. -/
theorem ecbCommandRoundTrip : Obligations.EcbCommandRoundTrip := fun s _ u =>
  (rawRoundTrip_ecb (message s) (ivBytes s) (ivBytes u) (ivBytes_length s)).commands (.inl rfl) (.inl rfl)

/-- Settles O48: the CBC round trip of R190, as both states have the IV it is stated with. -/
theorem cbcCommandRoundTrip : Obligations.CbcCommandRoundTrip := by
  intro s t u hs hu hnk hlen hx hbuf hnku hkey hiv hmsg
  have hivBytes : ivBytes u = ivBytes s := by rw [ivBytes, ivBytes, hiv]
  have hraw : RawRoundTrip .encCbc .decCbc (message s) (ivBytes s) (ivBytes u) := by
    rw [hivBytes]
    exact rawRoundTrip_cbc _ _ (ivBytes_length s)
  exact hraw.commands (.inr rfl) (.inr rfl) hs hu hnk hlen hx hbuf hnku hkey hmsg

end Sys2Proof.Machine
end
